-- ==== Sys2Proof/Word.lean ====
section
/-! DEFINITION. The word and byte types of XXTEA-CORE (spec 00_scope.md R8, R10). -/

namespace Sys2Proof

/-- A data value of the transform or of a register: 32 bits, unsigned, wrapping (R8, R11, R12). -/
abbrev Word := BitVec 32

/-- A byte of the key window or of the block buffer. -/
abbrev Byte := BitVec 8

end Sys2Proof
end

