-- ==== Sys2Proof/Config.lean ====
section
/-! DEFINITION. The implementation parameters (spec 00_scope.md R6, R7, R9; 20_memory.md R51) and the free values for what
the spec leaves unspecified. -/

namespace Sys2Proof

/-- The named parameters of one implementation.
State carries them, so a statement about every state is a statement about every configuration (log 1). -/
structure Params where
  /-- NMAX, the capacity of the block buffer in words (R6). -/
  nmax : Nat
  /-- AW, the width of a bus address (R7). -/
  aw : Nat
  /-- STEP_CYCLES, clock cycles per engine step; no rule reads it (R9, log 2). -/
  stepCycles : Nat
  /-- BASE, where the platform places the register map; no rule reads it (R51, log 2). -/
  base : Nat
  deriving DecidableEq, Repr

/-- The reference configuration of R6 and R7: NMAX = 1024, AW = 13.
STEP_CYCLES = 1 and BASE = 0 are DESIGN CHOICE (log 2). -/
def Params.reference : Params where
  nmax := 1024
  aw := 13
  stepCycles := 1
  base := 0

/-- The sequencer registers whose value is unspecified outside a running command (10_state.md R32). -/
inductive SeqReg where
  | n | rounds | sum | z | y | r | cyc
  deriving DecidableEq, Repr

/-- FREE VALUE (log 3). The byte that block-buffer address `addr` holds after the power-on numbered `epoch`, until it is
written: "unspecified means the model takes any value (a draw)" (10_state.md R36, 93_implementation_defined.md U3). -/
opaque Config.powerOnByte (epoch addr : Nat) : Byte

/-- FREE VALUE (log 4). What a sequencer register holds after the draw numbered `draw` (10_state.md R32, R36; U4). -/
opaque Config.unspecified (reg : SeqReg) (draw : Nat) : Word

/-- FREE VALUE (log 5). What a host read of the DATA window returns while BUSY, a fresh draw per read
(70_reset_and_hazards.md R197; U2). -/
opaque Config.busyRead (draw : Nat) : Word

end Sys2Proof
end

