-- ==== Sys2Proof/Syntax.lean ====
section
/-! DEFINITION. The four commands of XXTEA-CORE (spec 30_encoding.md R83, opcode_table.json). -/

namespace Sys2Proof

/-- One constructor per row of the opcode table.
No command has operand fields (R82); the operands are the registers at the time the command is accepted. -/
inductive Instr where
  /-- NOP (41_commands.md R141). -/
  | nop
  /-- ENCRYPT (R144). -/
  | encrypt
  /-- DECRYPT (R145). -/
  | decrypt
  /-- SRST (R142). `ignored` is bits 30:0 of the word, which the block ignores (R80).
  They are kept so that no bit of a command word is lost (log 14). -/
  | srst (ignored : BitVec 31)
  deriving DecidableEq, Repr

end Sys2Proof
end

