-- ==== Sys2Proof/Machine/State.lean ====
section
/-! DEFINITION. The state of XXTEA-CORE (spec 10_state.md), the host's side of the bus as plain data, the reasons a step can
stop, and the state after power-on reset. -/

namespace Sys2Proof.Machine

/-- PHASE (R30). -/
inductive Phase where
  | idle | enc | dec | faulted
  deriving DecidableEq, Repr

/-- The fault codes of 60_exceptions.md R170; codes 6 to 15 are reserved and never produced, so they have no name here
(log 15). KEY_LEN has a code and is never raised. -/
inductive FaultCode where
  | none | keyLen | lenZero | lenUnaligned | lenRange | illegalCmd
  deriving DecidableEq, Repr

/-- The access sizes of the bus: 1, 2 and 4 bytes (20_memory.md R54). -/
inductive Size where
  | byte | half | word
  deriving DecidableEq, Repr

/-- One operation of the host.
`read` and `write` are MemRead and MemWrite (R55, R56); a write uses the low 8·n bits of `v` (log 11).
`poll off mask val` is POLL of 30_encoding.md R85: RD32 `off` again and again until (result & mask) = val. -/
inductive HostOp where
  | read (a : BitVec 32) (n : Size)
  | write (a : BitVec 32) (n : Size) (v : Word)
  | poll (off : BitVec 32) (mask val : Word)
  deriving DecidableEq, Repr

/-- Who moves next: the host (its next operation), the engine (its one enabled step), or the power-on reset
(70_reset_and_hazards.md R190, R199). -/
inductive Turn where
  | host | engine | powerOn
  deriving DecidableEq, Repr

/-- The bus's answer to a host transaction: a write was completed, a read returned data (zero-extended to 32 bits), or
BusError (R60). -/
inductive Answer where
  | written
  | data (v : Word)
  | busError
  deriving DecidableEq, Repr

/-- The sequencer registers (R31), each 32 bits. -/
structure Sequencer where
  /-- N, the word count of the running command. -/
  n : Word
  /-- ROUNDS, the cycle count of the running command. -/
  rounds : Word
  /-- SUM, the sum accumulator. -/
  sum : Word
  /-- Z, the left neighbour carried from round to round (encrypt). -/
  z : Word
  /-- Y, the right neighbour carried from round to round (decrypt). -/
  y : Word
  /-- R, the index of the word the next engine step updates. -/
  r : Word
  /-- CYC, the number of cycles completed so far. -/
  cyc : Word
  deriving DecidableEq, Repr

/-- The sequencer registers with every value unspecified, as drawn by the draw numbered `d` (R32, R36; log 4). -/
def Sequencer.unspecified (d : Nat) : Sequencer where
  n := Config.unspecified .n d
  rounds := Config.unspecified .rounds d
  sum := Config.unspecified .sum d
  z := Config.unspecified .z d
  y := Config.unspecified .y d
  r := Config.unspecified .r d
  cyc := Config.unspecified .cyc d

/-- The state of the block (R20), its parameters, and the host's side of the bus.
CTRL stores nothing (R24), STATUS is computed (R25) and CAP is `params.nmax` (R27). -/
structure State where
  /-- NMAX, AW, STEP_CYCLES, BASE; no step changes them. -/
  params : Params
  /-- LEN (R23). -/
  len : Word
  /-- K[0 … 3] (R21). -/
  key : Vector Word 4
  /-- V[0 … NMAX−1] (R22): the bytes written since power-on, by bus address, in canonical form (log 3, log 16). -/
  mem : List Host.Cell
  /-- PHASE (R30). -/
  phase : Phase
  /-- FCODE (R31, R170). -/
  fcode : FaultCode
  /-- DONE (R26). -/
  done : Bool
  /-- WERR (R31, R196). -/
  werr : Bool
  /-- N, ROUNDS, SUM, Z, Y, R, CYC (R31). -/
  seq : Sequencer
  /-- The model's own: which power-on gave the bytes of V that nothing has written (log 6). -/
  epoch : Nat
  /-- The model's own: the number of the next free value to be drawn (log 6). -/
  draws : Nat
  /-- The host's operations still to come, oldest first (log 8). -/
  host : List HostOp
  /-- Which agent moves at each of the next steps (log 7). -/
  turns : List Turn
  /-- The answer to the last completed host transaction (log 9). -/
  answer : Option Answer
  deriving DecidableEq, Repr

/-- Why the machine stops. -/
inductive Fault where
  /-- Raised by an engine step whose word index leaves the block (R ≥ N or N > NMAX), which 20_memory.md R63 excludes.
  Safe: no state that meets the invariant raises it (log 13). -/
  | engineOutsideBlock
  deriving DecidableEq, Repr

/-- Why the model has no meaning for an instruction. -/
inductive Refusal where
  /-- Raised by `exec` for an instruction that has no meaning yet. Safe: the run stops. -/
  | notModelled (mnemonic : String)
  deriving DecidableEq, Repr

/-- The state that a power-on leaves (R36, 70_reset_and_hazards.md R190), drawing its unspecified values with draw `d`.
The host's side of the bus is not the block's, so it is given. -/
def State.afterPowerOn (p : Params) (d : Nat) (host : List HostOp) (turns : List Turn) (answer : Option Answer) :
    State where
  params := p
  len := 0
  key := Vector.replicate 4 0
  mem := []
  phase := .idle
  fcode := .none
  done := false
  werr := false
  seq := Sequencer.unspecified d
  epoch := d
  draws := d + 1
  host := host
  turns := turns
  answer := answer

/-- The machine right after power-on reset, in the reference configuration, with no transaction pending (R36, R190). -/
def State.reset : State := State.afterPowerOn Params.reference 0 [] [] none

end Sys2Proof.Machine
end

