-- ==== Sys2Proof/Machine/Operands.lean ====
section
/-! DEFINITION. Byte lanes and packing (spec 20_memory.md R52, R53, R57), the register map and the legality of a transaction
(R51, R54), and the implicit operands of a command (30_encoding.md R82). -/

namespace Sys2Proof.Machine

/-- How many bytes an access of this size covers (R54). -/
def Size.bytes : Size → Nat
  | .byte => 1
  | .half => 2
  | .word => 4

/-- Byte `lane` of a word: bits [8·lane+7 : 8·lane] (R52). -/
def byteLane (w : Word) (lane : Nat) : Byte := w.extractLsb' (8 * lane) 8

/-- The word with byte `lane` replaced and the other bytes kept (R56). -/
def setByteLane (w : Word) (lane : Nat) (b : Byte) : Word :=
  (w &&& ~~~(0xFF#32 <<< (8 * lane))) ||| (b.setWidth 32 <<< (8 * lane))

/-- The little-endian value of the `n` bytes f j, f (j+1), …, zero-extended to 32 bits (R55, R57). -/
def gather (f : Nat → Byte) (j : Nat) : Nat → Word
  | 0 => 0
  | n + 1 => gather f j n ||| ((f (j + n)).setWidth 32 <<< (8 * n))

/-- `pack` of R53: a byte string as words, four bytes a word, the first byte in the low lane. -/
def pack : List Byte → List Word
  | b0 :: b1 :: b2 :: b3 :: rest => (b3 ++ b2 ++ b1 ++ b0 : BitVec 32) :: pack rest
  | _ => []

/-- `unpack` of R53: the bytes of words, low lane first. -/
def unpack : List Word → List Byte
  | [] => []
  | w :: ws => byteLane w 0 :: byteLane w 1 :: byteLane w 2 :: byteLane w 3 :: unpack ws

/-- Key byte j, 0 ≤ j ≤ 15: byte j mod 4 of K[j div 4] (R21). -/
def keyByte (k : Vector Word 4) (j : Nat) : Byte := byteLane (k[j / 4]?.getD 0) (j % 4)

/-- The key with key byte j replaced. -/
def setKeyByte (k : Vector Word 4) (j : Nat) (b : Byte) : Vector Word 4 :=
  k.setIfInBounds (j / 4) (setByteLane (k[j / 4]?.getD 0) (j % 4) b)

/-- The key with key bytes j … j+n−1 replaced by the low n bytes of v (R56). -/
def setKeyBytes (k : Vector Word 4) (j : Nat) (v : Word) : Nat → Vector Word 4
  | 0 => k
  | n + 1 => setKeyByte (setKeyBytes k j v n) (j + n) (byteLane v n)

/-- The key word the index of 40_transform.md R104 selects. -/
def keyWord (k : Vector Word 4) (i : BitVec 2) : Word := k[i.toNat]'i.isLt

/-- Offset of the KEY window (R51). -/
def keyBase : Nat := 0x010

/-- Offset of the DATA window (R51). -/
def dataBase : Nat := 0x1000

/-- The bus address of block word i, byte 0 (R22). -/
def wordAddr (i : Nat) : Nat := dataBase + 4 * i

/-- What stands at a byte address of the host register space (R51).
`key j` is key byte j, `data b` is block byte b. -/
inductive Region where
  | ctrl | status | len | cap
  | key (j : Nat)
  | data (b : Nat)
  deriving DecidableEq, Repr

/-- The register map (R51); none where nothing is mapped. -/
def regionAt (p : Params) (a : Nat) : Option Region :=
  if a < 0x004 then some .ctrl
  else if a < 0x008 then some .status
  else if a < 0x00C then some .len
  else if a < keyBase then some .cap
  else if a < 0x020 then some (.key (a - keyBase))
  else if a < dataBase then none
  else if a < dataBase + 4 * p.nmax then some (.data (a - dataBase))
  else none

/-- The access sizes a range allows (R51). -/
def Region.allows : Region → Size → Bool
  | .key _, _ => true
  | .data _, _ => true
  | .ctrl, n => n == .word
  | .status, n => n == .word
  | .len, n => n == .word
  | .cap, n => n == .word

/-- What a transaction of `n` bytes at `a` reaches, or none where the transaction is illegal: it must be aligned, lie in a
mapped range with its first and its last byte, and have a size that range allows (R54). -/
def busTarget (p : Params) (a : BitVec 32) (n : Size) : Option Region :=
  match regionAt p a.toNat, regionAt p (a.toNat + n.bytes - 1) with
  | some g, some _ => if a.toNat % n.bytes = 0 ∧ g.allows n then some g else none
  | some _, none => none
  | none, _ => none

/-- Address 0 of the map: CTRL (R51). -/
def ctrlAddr : BitVec 32 := 0x000

/-- A write of a word with bit 31 set to CTRL: the one write that is accepted while BUSY (R56, R196). -/
def HostOp.isSoftReset : HostOp → Bool
  | .write a n v => a == ctrlAddr && n == .word && v.msb
  | .read _ _ => false
  | .poll _ _ _ => false

/-- N = LEN div 4, the word count of a command (R82). -/
def wordCount (len : Word) : Word := len / 4

end Sys2Proof.Machine
end

