-- ==== Sys2Proof/WellFormed.lean ====
section
/-! DEFINITION. What is well formed: a command, a configuration, an operation of the host. -/

namespace Sys2Proof

/-- Every term of `Instr` is a command: no command has an operand that could be out of range (30_encoding.md R82). -/
def Instr.wf : Instr → Bool
  | .nop => true
  | .encrypt => true
  | .decrypt => true
  | .srst _ => true

/-- The bounds on the parameters: R6 (NMAX), R7 (AW), R9 (STEP_CYCLES). -/
def Params.wf (p : Params) : Bool :=
  decide (1 ≤ p.nmax) && decide (p.nmax ≤ 2 ^ 28) && decide (0x1000 + 4 * p.nmax ≤ 2 ^ p.aw) && decide (p.aw ≤ 32) &&
    decide (1 ≤ p.stepCycles)

namespace Machine

/-- An operation the host can put on this bus: its address has AW bits, and a written value has 8·n bits (R54). -/
def HostOp.wf (p : Params) : HostOp → Bool
  | .read a _ => decide (a.toNat < 2 ^ p.aw)
  | .write a n v => decide (a.toNat < 2 ^ p.aw) && decide (v.toNat < 2 ^ (8 * n.bytes))
  | .poll off _ _ => decide (off.toNat < 2 ^ p.aw)

end Machine

end Sys2Proof
end

