-- ==== Sys2Proof/Decode.lean ====
section
/-! DEFINITION. Decoding and encoding a command word (spec 30_encoding.md R80, R81, R83, R84). -/

namespace Sys2Proof

/-- Why a word is no command (R84). -/
inductive IllegalReason where
  /-- Bit 31 is 0 and a bit of 30:2 is 1. -/
  | reservedBits
  /-- Bits 31:2 are 0 and OP = 3. -/
  | reservedOp
  deriving DecidableEq, Repr

/-- What a CTRL word decodes to: a command, or ILLEGAL (R81). -/
inductive Decoded where
  | command (i : Instr)
  | illegal (why : IllegalReason)
  deriving DecidableEq, Repr

/-- The field SRST, bit 31 (R80). -/
def srstField (w : Word) : BitVec 1 := w.extractLsb' 31 1

/-- The field RSVD, bits 30:2 (R80). -/
def rsvdField (w : Word) : BitVec 29 := w.extractLsb' 2 29

/-- The field OP, bits 1:0 (R80). -/
def opField (w : Word) : BitVec 2 := w.extractLsb' 0 2

/-- Decoding is total on the 32-bit words (R81). -/
def decode (w : Word) : Decoded :=
  if srstField w = 1 then .command (.srst (w.extractLsb' 0 31))
  else if rsvdField w ≠ 0 then .illegal .reservedBits
  else if opField w = 0 then .command .nop
  else if opField w = 1 then .command .encrypt
  else if opField w = 2 then .command .decrypt
  else .illegal .reservedOp

/-- The word of a command, put together from the fields of R80: SRST, RSVD, OP. -/
def encode : Instr → Word
  | .nop => (0#1 ++ 0#29) ++ 0#2
  | .encrypt => (0#1 ++ 0#29) ++ 1#2
  | .decrypt => (0#1 ++ 0#29) ++ 2#2
  | .srst ignored => 1#1 ++ ignored

/-- The row of the opcode table (R83) a command belongs to: its match value. -/
def rowMatch : Instr → Word
  | .nop => 0x00000000
  | .encrypt => 0x00000001
  | .decrypt => 0x00000002
  | .srst _ => 0x80000000

/-- The row of the opcode table (R83) a command belongs to: its mask. -/
def rowMask : Instr → Word
  | .nop => 0xFFFFFFFF
  | .encrypt => 0xFFFFFFFF
  | .decrypt => 0xFFFFFFFF
  | .srst _ => 0x80000000

/-- The command word that an instruction of `nbits` bits stands for, every bit from `nbits` up zero. -/
def tableWord (nbits w : Nat) : Word := BitVec.ofNat 32 (w % 2 ^ nbits)

/-- What the decoder reads from the table's bits: one 32-bit word, bit 0 the least significant (R10, R80). -/
def decodeTableWord (nbits w : Nat) : Option Instr :=
  match decode (tableWord nbits w) with
  | .command i => some i
  | .illegal _ => none

end Sys2Proof
end

