-- ==== Sys2Proof/Machine/Flags.lean ====
section
/-! DEFINITION. The status flags and the STATUS register (spec 10_state.md R25, R26, R30; 60_exceptions.md R170). The block has
no arithmetic flags (R34). -/

namespace Sys2Proof.Machine

/-- The 4-bit code of a fault (R170). -/
def FaultCode.bits : FaultCode → BitVec 4
  | .none => 0
  | .keyLen => 1
  | .lenZero => 2
  | .lenUnaligned => 3
  | .lenRange => 4
  | .illegalCmd => 5

/-- PHASE is ENC or DEC. -/
def Phase.busy : Phase → Bool
  | .idle => false
  | .enc => true
  | .dec => true
  | .faulted => false

/-- STATUS.BUSY (R30). -/
def State.busy (s : State) : Bool := s.phase.busy

/-- STATUS.FAULT (R30). -/
def State.faulted (s : State) : Bool := s.phase == .faulted

/-- The STATUS register: FCODE in 7:4, WERR in 3, FAULT in 2, DONE in 1, BUSY in 0, and 31:8 read as 0 (R25). -/
def State.status (s : State) : Word :=
  0#24 ++ s.fcode.bits ++ BitVec.ofBool s.werr ++ BitVec.ofBool s.faulted ++ BitVec.ofBool s.done ++ BitVec.ofBool s.busy

/-- The CAP register (R27). -/
def State.cap (s : State) : Word := BitVec.ofNat 32 s.params.nmax

end Sys2Proof.Machine
end

