-- ==== Sys2Proof/Machine/Ops.lean ====
section
/-! DEFINITION. The shared operations: the block buffer's bytes and words, taking a fault (the block's one exception) and leaving
it by reset, dropping a busy write, unspecified values, completion, and the bus's answer. -/

namespace Sys2Proof.Machine

/-- The byte listed at an address; none where nothing was written since power-on. -/
def Memory.get (a : Nat) : List Host.Cell → Option Byte
  | [] => none
  | c :: m => if c.1 = a then some c.2 else Memory.get a m

/-- Write one byte, keeping the list sorted by address with no repeats. -/
def Memory.set (a : Nat) (b : Byte) : List Host.Cell → List Host.Cell
  | [] => [(a, b)]
  | c :: m =>
    if a < c.1 then (a, b) :: c :: m
    else if a = c.1 then (a, b) :: m
    else c :: Memory.set a b m

/-- Write the low n bytes of v at a, a+1, …, little-endian (R52, R56). -/
def Memory.store (a : Nat) (v : Word) : Nat → List Host.Cell → List Host.Cell
  | 0, m => m
  | n + 1, m => Memory.set (a + n) (byteLane v n) (Memory.store a v n m)

/-- Every listed address lies above `lo`, and the addresses rise strictly. -/
def Memory.above (lo : Nat) : List Host.Cell → Bool
  | [] => true
  | c :: m => decide (lo < c.1) && Memory.above c.1 m

/-- The canonical form: the addresses rise strictly.
An unlisted address has no value of its own, so no entry can equal what an unlisted address reads as (log 3). -/
def Memory.wf : List Host.Cell → Bool
  | [] => true
  | c :: m => Memory.above c.1 m

/-- What an unlisted byte of the block buffer reads as: the free value of the last power-on (R36, log 3). -/
def State.unlistedByte (s : State) (a : Nat) : Byte := Config.powerOnByte s.epoch a

/-- The byte of the block buffer at a bus address: the model's read of one byte of memory. -/
def State.blockByte (s : State) (a : Nat) : Byte := (Memory.get a s.mem).getD (s.unlistedByte a)

/-- V[i] (R22, R63). -/
def State.blockWord (s : State) (i : Nat) : Word := gather s.blockByte (wordAddr i) 4

/-- V[i] <- v by the engine (R63). -/
def State.setBlockWord (i : Nat) (v : Word) (s : State) : State :=
  { s with mem := Memory.store (wordAddr i) v 4 s.mem }

/-- V[0 … n−1]. -/
def State.block (s : State) (n : Nat) : List Word := (List.range n).map s.blockWord

/-- `raise Fault(code)` (60_exceptions.md R172): taking an exception is this and nothing else. -/
def State.raiseFault (code : FaultCode) (s : State) : State := { s with phase := .faulted, fcode := code }

/-- N, ROUNDS, SUM, Z, Y, R and CYC become unspecified (R32, log 4). -/
def State.unspecifySequencer (s : State) : State :=
  { s with seq := Sequencer.unspecified s.draws, draws := s.draws + 1 }

/-- SoftReset (70_reset_and_hazards.md R191): with power-on reset, the one way out of FAULTED (R176). -/
def State.softReset (s : State) : State :=
  { s with
    phase := .idle, fcode := .none, done := false, werr := false, len := 0, key := Vector.replicate 4 0
    seq := Sequencer.unspecified s.draws, draws := s.draws + 1 }

/-- Power-on reset while the block stands in state s (R190): every unspecified value is drawn anew, the parameters and the
host's side of the bus stay (log 12). -/
def State.powerOn (s : State) : State := State.afterPowerOn s.params s.draws s.host s.turns s.answer

/-- A write dropped because the engine is BUSY sets WERR and changes nothing else (R196). -/
def State.dropWrite (s : State) : State := { s with werr := true }

/-- Complete (41_commands.md R153). -/
def State.complete (s : State) : State := { s with phase := .idle, done := true }.unspecifySequencer

/-- The bus answers the host's transaction. -/
def State.respond (a : Answer) (s : State) : State := { s with answer := some a }

/-- What a command word other than SRST does by phase: it is dropped with WERR while BUSY (R196), dropped with no effect while
FAULTED (60_exceptions.md R175), and `accept` says what it does in IDLE (41_commands.md R140). -/
def State.acceptInIdle (accept : State → State) (s : State) : State :=
  match s.phase with
  | .idle => accept s
  | .enc => s.dropWrite
  | .dec => s.dropWrite
  | .faulted => s

/-- CheckLen (R143): the first failing check in the order LEN_ZERO, LEN_UNALIGNED, LEN_RANGE, or NONE for OK. -/
def checkLen (p : Params) (len : Word) : FaultCode :=
  if len = 0 then .lenZero
  else if len.extractLsb' 0 2 ≠ 0 then .lenUnaligned
  else if len.toNat > 4 * p.nmax then .lenRange
  else .none

/-- The state of a next state changed further; a fault or a refusal stays what it is. -/
def mapNext (f : State → State) : Host.Outcome State Fault Refusal → Host.Outcome State Fault Refusal
  | .next s => .next (f s)
  | .fault r => .fault r
  | .refused r => .refused r

end Sys2Proof.Machine
end

