-- ==== Sys2Proof/Machine/Transform.lean ====
section
/-! DEFINITION. The XXTEA transform as pure functions of the key and the block words (spec 40_transform.md R100–R123). The engine
steps of Machine/Engine.lean use the same constants, mixing function and key index. -/

namespace Sys2Proof.Machine

/-- DELTA (R100). -/
def delta : Word := 0x9e3779b9

/-- The number of cycles over a block of n words, n ≥ 1 (R101, R14). -/
def rounds (n : Nat) : Nat := 6 + 52 / n

/-- MX (R103). -/
def mx (sum y z kw : Word) : Word :=
  let mix := ((z >>> 5) ^^^ (y <<< 2)) + ((y >>> 3) ^^^ (z <<< 4))
  let keyed := (sum ^^^ y) + (kw ^^^ z)
  mix ^^^ keyed

/-- The key word index (r ^ e) & 3 with e = sum >> 2 (R104). -/
def keyIndex (r sum : Word) : BitVec 2 := ((r ^^^ (sum >>> 2)) &&& 3).setWidth 2

/-- Where a transform stands: the sum, the block words, and the neighbour carried from round to round (z of Encrypt, y of
Decrypt). -/
structure Pass where
  sum : Word
  words : List Word
  carry : Word
  deriving DecidableEq, Repr

/-- V[i] of the pure functions. -/
def Pass.word (p : Pass) (i : Nat) : Word := p.words.getD i 0

/-- One round of Encrypt at word r: the body of the inner loop of R110. -/
def encRound (k : Vector Word 4) (p : Pass) (r : Nat) : Pass :=
  let y := p.word ((r + 1) % p.words.length)
  let x := p.word r + mx p.sum y p.carry (keyWord k (keyIndex (BitVec.ofNat 32 r) p.sum))
  { p with words := p.words.set r x, carry := x }

/-- One cycle of Encrypt: the sum's increment, then the rounds 0 … N−1 (R110, R111). -/
def encCycle (k : Vector Word 4) (p : Pass) : Pass :=
  (List.range p.words.length).foldl (encRound k) { p with sum := p.sum + delta }

/-- `c` cycles of Encrypt. -/
def encCycles (k : Vector Word 4) : Nat → Pass → Pass
  | 0, p => p
  | c + 1, p => encCycles k c (encCycle k p)

/-- Encrypt's loop from its start values: sum = 0, z = V[N−1] (R110). -/
def encryptPass (k : Vector Word 4) (v : List Word) : Pass :=
  encCycles k (rounds v.length) { sum := 0, words := v, carry := v.getD (v.length - 1) 0 }

/-- Encrypt(K, V, N), N the length of the list (R110). -/
def encryptBlock (k : Vector Word 4) (v : List Word) : List Word := (encryptPass k v).words

/-- One round of Decrypt at word r: the body of the inner loop of R115. -/
def decRound (k : Vector Word 4) (p : Pass) (r : Nat) : Pass :=
  let z := p.word ((r + p.words.length - 1) % p.words.length)
  let x := p.word r - mx p.sum p.carry z (keyWord k (keyIndex (BitVec.ofNat 32 r) p.sum))
  { p with words := p.words.set r x, carry := x }

/-- One cycle of Decrypt: the rounds N−1 … 0, then the sum's decrement (R115, R116, R117). -/
def decCycle (k : Vector Word 4) (p : Pass) : Pass :=
  let q := (List.range p.words.length).reverse.foldl (decRound k) p
  { q with sum := q.sum - delta }

/-- `c` cycles of Decrypt. -/
def decCycles (k : Vector Word 4) : Nat → Pass → Pass
  | 0, p => p
  | c + 1, p => decCycles k c (decCycle k p)

/-- The sum Decrypt starts from, ROUNDS * DELTA (R115, R116). -/
def startSum (n : Nat) : Word := BitVec.ofNat 32 (rounds n) * delta

/-- Decrypt's loop from its start values: sum = ROUNDS * DELTA, y = V[0] (R115). -/
def decryptPass (k : Vector Word 4) (v : List Word) : Pass :=
  decCycles k (rounds v.length) { sum := startSum v.length, words := v, carry := v.getD 0 0 }

/-- Decrypt(K, V, N), N the length of the list (R115). -/
def decryptBlock (k : Vector Word 4) (v : List Word) : List Word := (decryptPass k v).words

end Sys2Proof.Machine
end

