-- ==== Sys2Proof/Machine/Commands.lean ====
section
/-! DEFINITION. The meanings of the four commands (spec 41_commands.md R140–R145). -/

namespace Sys2Proof.Machine

/-- The length check and then the acceptance of ENCRYPT or DECRYPT in IDLE: a failing check raises its fault and changes
nothing else (R143, R144, R145). -/
def State.checkThen (accept : State → State) (s : State) : State :=
  if checkLen s.params s.len = .none then accept s else s.raiseFault (checkLen s.params s.len)

/-- AcceptEncrypt after the check (R144). Y is not written. -/
def State.acceptEncrypt (s : State) : State :=
  { s with
    seq :=
      { s.seq with
        n := wordCount s.len
        rounds := BitVec.ofNat 32 (rounds (wordCount s.len).toNat)
        sum := 0
        z := s.blockWord ((wordCount s.len).toNat - 1)
        r := 0
        cyc := 0 }
    done := false
    phase := .enc }

/-- AcceptDecrypt after the check (R145). Z is not written. -/
def State.acceptDecrypt (s : State) : State :=
  { s with
    seq :=
      { s.seq with
        n := wordCount s.len
        rounds := BitVec.ofNat 32 (rounds (wordCount s.len).toNat)
        sum := startSum (wordCount s.len).toNat
        y := s.blockWord 0
        r := wordCount s.len - 1
        cyc := 0 }
    done := false
    phase := .dec }

/-- NOP (R141). -/
def execNop (s : State) : Host.Outcome State Fault Refusal := .next (s.acceptInIdle id)

/-- ENCRYPT (R144). -/
def execEncrypt (s : State) : Host.Outcome State Fault Refusal :=
  .next (s.acceptInIdle (State.checkThen State.acceptEncrypt))

/-- DECRYPT (R145). -/
def execDecrypt (s : State) : Host.Outcome State Fault Refusal :=
  .next (s.acceptInIdle (State.checkThen State.acceptDecrypt))

/-- SRST (R142): accepted in every phase, bits 30:0 ignored. -/
def execSrst (_ignored : BitVec 31) (s : State) : Host.Outcome State Fault Refusal := .next s.softReset

/-- What a CTRL word that is no command does in IDLE: Fault(ILLEGAL_CMD) (R140, 30_encoding.md R84). -/
def illegalCommand (s : State) : Host.Outcome State Fault Refusal :=
  .next (s.acceptInIdle (State.raiseFault .illegalCmd))

end Sys2Proof.Machine
end

