-- ==== Sys2Proof/Machine/Engine.lean ====
section
/-! DEFINITION. The engine's steps (spec 41_commands.md R150–R153). -/

namespace Sys2Proof.Machine

/-- The index range of R63, 0 ≤ R < N ≤ NMAX: outside it the step reaches a word the block does not have. -/
def State.indexInBlock (s : State) : Bool :=
  decide (s.seq.r.toNat < s.seq.n.toNat) && decide (s.seq.n.toNat ≤ s.params.nmax)

/-- The end of a cycle: CYC is incremented, and the command completes when it reaches ROUNDS (R151, R152). -/
def State.endCycle (s : State) : State :=
  if s.seq.cyc + 1 = s.seq.rounds then { s with seq := { s.seq with cyc := s.seq.cyc + 1 } }.complete
  else { s with seq := { s.seq with cyc := s.seq.cyc + 1 } }

/-- EncStep's sum: a cycle starts with SUM + DELTA (R151). -/
def State.encSum (s : State) : Word := if s.seq.r = 0 then s.seq.sum + delta else s.seq.sum

/-- The value EncStep writes to V[R] (R151). -/
def State.encValue (s : State) : Word :=
  s.blockWord s.seq.r.toNat +
    mx s.encSum (s.blockWord ((s.seq.r.toNat + 1) % s.seq.n.toNat)) s.seq.z (keyWord s.key (keyIndex s.seq.r s.encSum))

/-- The round of EncStep: SUM, V[R] and Z (R151). -/
def State.encUpdate (s : State) : State :=
  { s.setBlockWord s.seq.r.toNat s.encValue with seq := { s.seq with sum := s.encSum, z := s.encValue } }

/-- The index part of EncStep: R counts up, and the cycle ends after R = N − 1 (R151). -/
def State.encAdvance (s : State) : State :=
  if s.seq.r = s.seq.n - 1 then { s with seq := { s.seq with r := 0 } }.endCycle
  else { s with seq := { s.seq with r := s.seq.r + 1 } }

/-- EncStep (R151). -/
def encStep (s : State) : Host.Outcome State Fault Refusal :=
  if s.indexInBlock then .next s.encUpdate.encAdvance else .fault .engineOutsideBlock

/-- The value DecStep writes to V[R] (R152). -/
def State.decValue (s : State) : Word :=
  s.blockWord s.seq.r.toNat -
    mx s.seq.sum s.seq.y (s.blockWord ((s.seq.r.toNat + s.seq.n.toNat - 1) % s.seq.n.toNat))
      (keyWord s.key (keyIndex s.seq.r s.seq.sum))

/-- The round of DecStep: V[R] and Y (R152). -/
def State.decUpdate (s : State) : State :=
  { s.setBlockWord s.seq.r.toNat s.decValue with seq := { s.seq with y := s.decValue } }

/-- The index part of DecStep: R counts down, and after R = 0 SUM is decremented and the cycle ends (R152). -/
def State.decAdvance (s : State) : State :=
  if s.seq.r = 0 then { s with seq := { s.seq with sum := s.seq.sum - delta, r := s.seq.n - 1 } }.endCycle
  else { s with seq := { s.seq with r := s.seq.r - 1 } }

/-- DecStep (R152). -/
def decStep (s : State) : Host.Outcome State Fault Refusal :=
  if s.indexInBlock then .next s.decUpdate.decAdvance else .fault .engineOutsideBlock

/-- The engine's one enabled step; in IDLE and FAULTED it has none, and its turn passes without effect (R150). -/
def engineTurn (s : State) : Host.Outcome State Fault Refusal :=
  match s.phase with
  | .idle => .next s
  | .enc => encStep s
  | .dec => decStep s
  | .faulted => .next s

end Sys2Proof.Machine
end

