-- ==== Sys2Proof/Machine/Bus.lean ====
section
/-! DEFINITION. Host bus transactions (spec 20_memory.md R54–R61), the command dispatch (41_commands.md R140), POLL (30_encoding.md
R85), and who moves next (20_memory.md R64, 41_commands.md R150). -/

namespace Sys2Proof.Machine

/-- The low 8·n bits of a word, zero-extended: an n-byte value on the bus. -/
def narrow (n : Size) (v : Word) : Word :=
  match n with
  | .byte => (v.setWidth 8).setWidth 32
  | .half => (v.setWidth 16).setWidth 32
  | .word => v

/-- MemRead (R55): the answer, and the state after. Only a DATA read while BUSY changes the state, and there only the model's
counter of free values (R197, log 5). -/
def memRead (a : BitVec 32) (n : Size) (s : State) : Answer × State :=
  match busTarget s.params a n with
  | none => (.busError, s)
  | some .ctrl => (.data 0, s)
  | some .status => (.data s.status, s)
  | some .len => (.data s.len, s)
  | some .cap => (.data s.cap, s)
  | some (.key j) => (.data (gather (keyByte s.key) j n.bytes), s)
  | some (.data b) =>
    if s.busy then (.data (narrow n (Config.busyRead s.draws)), { s with draws := s.draws + 1 })
    else (.data (gather s.blockByte (dataBase + b) n.bytes), s)

/-- Command(w) (R140): a command runs its meaning, an ILLEGAL word is refused by the phase (R84). -/
def command (w : Word) (s : State) : Host.Outcome State Fault Refusal :=
  match decode w with
  | .command i => exec i s
  | .illegal _ => illegalCommand s

/-- A legal write to a register other than CTRL that is not dropped (R56, R61). -/
def storeRegion (g : Region) (n : Size) (v : Word) (s : State) : State :=
  match g with
  | .ctrl => s
  | .status => s
  | .cap => s
  | .len => { s with len := v }
  | .key j => { s with key := setKeyBytes s.key j v n.bytes }
  | .data b => { s with mem := Memory.store (dataBase + b) v n.bytes s.mem }

/-- MemWrite (R56) with its answer.
A CTRL word goes to `command` in every phase: the commands themselves drop it while BUSY, all but SRST (R196, `State.acceptInIdle`). -/
def memWrite (a : BitVec 32) (n : Size) (v : Word) (s : State) : Host.Outcome State Fault Refusal :=
  match busTarget s.params a n with
  | none => .next (s.respond .busError)
  | some .ctrl => mapNext (State.respond .written) (command v s)
  | some g => .next ((if s.busy then s.dropWrite else storeRegion g n v s).respond .written)

/-- The data value of an answer; BusError returns 0 (R60). -/
def Answer.value : Answer → Word
  | .written => 0
  | .data v => v
  | .busError => 0

/-- One operation of the host, in the state from whose list it was taken.
A POLL whose condition does not hold yet stays the host's next operation (R85, log 10). -/
def hostOp (op : HostOp) (s : State) : Host.Outcome State Fault Refusal :=
  match op with
  | .read a n => .next ((memRead a n s).2.respond (memRead a n s).1)
  | .write a n v => memWrite a n v s
  | .poll off mask val =>
    let t := (memRead off .word s).2.respond (memRead off .word s).1
    if (memRead off .word s).1.value &&& mask = val then .next t else .next { t with host := op :: t.host }

/-- The host's turn: its oldest pending operation, or nothing where it has none. -/
def hostTurn (s : State) : Host.Outcome State Fault Refusal :=
  match s.host with
  | [] => .next s
  | op :: rest => hostOp op { s with host := rest }

/-- Who moves next: as the list of turns says; when it is used up, the engine while BUSY and else the host, so that the
engine is never starved (70_reset_and_hazards.md R200, log 7). -/
def State.nextTurn (s : State) : Turn :=
  match s.turns with
  | [] => if s.busy then .engine else .host
  | t :: _ => t

/-- The turn is used up. -/
def State.popTurn (s : State) : State := { s with turns := s.turns.tail }

/-- One atomic event of the total order of R64. -/
def takeTurn (t : Turn) (s : State) : Host.Outcome State Fault Refusal :=
  match t with
  | .host => hostTurn s
  | .engine => engineTurn s
  | .powerOn => .next s.powerOn

/-- The host issues this write to CTRL at the very next step. -/
def State.withCommandWord (w : Word) (s : State) : State :=
  { s with host := .write ctrlAddr .word w :: s.host, turns := .host :: s.turns }

end Sys2Proof.Machine
end

