-- ==== Sys2Proof/Machine/HostProgram.lean ====
section
/-! DEFINITION. The notation for host programs of spec 30_encoding.md R85, as lists of host operations. -/

namespace Sys2Proof.Machine

/-- WR32 off, v. -/
def wr32 (off : BitVec 32) (v : Word) : HostOp := .write off .word v

/-- WR16 off, v. -/
def wr16 (off : BitVec 32) (v : BitVec 16) : HostOp := .write off .half (v.setWidth 32)

/-- WR8 off, v. -/
def wr8 (off : BitVec 32) (v : Byte) : HostOp := .write off .byte (v.setWidth 32)

/-- RD32 off. -/
def rd32 (off : BitVec 32) : HostOp := .read off .word

/-- RD16 off. -/
def rd16 (off : BitVec 32) : HostOp := .read off .half

/-- RD8 off. -/
def rd8 (off : BitVec 32) : HostOp := .read off .byte

/-- NOP. -/
def hostNop : HostOp := wr32 0x000 0x00000000

/-- ENCRYPT. -/
def hostEncrypt : HostOp := wr32 0x000 0x00000001

/-- DECRYPT. -/
def hostDecrypt : HostOp := wr32 0x000 0x00000002

/-- SRST. -/
def hostSrst : HostOp := wr32 0x000 0x80000000

/-- WAIT: poll STATUS until BUSY = 0. -/
def hostWait : HostOp := .poll 0x004 0x00000001 0x00000000

/-- SETLEN n. -/
def hostSetLen (n : Word) : HostOp := wr32 0x008 n

/-- SETKEY k0, k1, k2, k3. -/
def hostSetKey (k0 k1 k2 k3 : Word) : List HostOp := [wr32 0x010 k0, wr32 0x014 k1, wr32 0x018 k2, wr32 0x01C k3]

/-- LOAD i, w0, …, wm. -/
def hostLoad (i : Nat) : List Word → List HostOp
  | [] => []
  | w :: ws => wr32 (BitVec.ofNat 32 (wordAddr i)) w :: hostLoad (i + 1) ws

end Sys2Proof.Machine
end

