-- ==== Sys2Proof/Safety.lean ====
section
/-! DEFINITION. The invariant of the machine (spec 10_state.md R22, R25, R26, R31; 41_commands.md R143–R152; 40_transform.md R111,
R116, R117) and what a safe run is. -/

namespace Sys2Proof.Machine

/-- Every listed byte lies in the DATA window (20_memory.md R51). -/
def Memory.inWindow (p : Params) (m : List Host.Cell) : Bool :=
  m.all fun c => decide (dataBase ≤ c.1) && decide (c.1 < dataBase + 4 * p.nmax)

/-- What holds of every state a run reaches. -/
structure State.Inv (s : State) : Prop where
  /-- The parameters meet R6, R7 and R9. -/
  params_wf : s.params.wf = true
  /-- The block buffer is in canonical form (log 3). -/
  mem_wf : Memory.wf s.mem = true
  /-- No byte outside the DATA window is held (R22, R51). -/
  mem_inWindow : Memory.inWindow s.params s.mem = true
  /-- KEY_LEN is never raised (R170). -/
  fcode_not_keyLen : s.fcode ≠ .keyLen
  /-- FCODE is 0 exactly when FAULT is 0 (R25). -/
  fcode_none_iff : s.fcode = .none ↔ s.phase ≠ .faulted
  /-- DONE = 1 implies BUSY = 0 (R25). -/
  busy_done : s.busy = true → s.done = false
  /-- The running command passed its length check (R143); LEN cannot change while BUSY (R196). -/
  busy_len : s.busy = true → checkLen s.params s.len = .none
  /-- N = LEN div 4 (R31, R144). -/
  busy_n : s.busy = true → s.seq.n = wordCount s.len
  /-- ROUNDS = rounds(N) (R31). -/
  busy_rounds : s.busy = true → s.seq.rounds = BitVec.ofNat 32 (rounds s.seq.n.toNat)
  /-- 0 ≤ R < N (R31). -/
  busy_r : s.busy = true → s.seq.r.toNat < s.seq.n.toNat
  /-- 0 ≤ CYC < ROUNDS (R31). -/
  busy_cyc : s.busy = true → s.seq.cyc.toNat < s.seq.rounds.toNat
  /-- Encrypt's sum counts the cycles begun (R110, R151). -/
  enc_sum : s.phase = .enc → s.seq.sum = (if s.seq.r = 0 then s.seq.cyc else s.seq.cyc + 1) * delta
  /-- Z is the left neighbour of the next round (R111). -/
  enc_z : s.phase = .enc → s.seq.z = s.blockWord ((s.seq.r.toNat + s.seq.n.toNat - 1) % s.seq.n.toNat)
  /-- Decrypt's sum counts the cycles not yet ended (R116, R152). -/
  dec_sum : s.phase = .dec → s.seq.sum = (s.seq.rounds - s.seq.cyc) * delta
  /-- Y is the right neighbour of the next round (R117). -/
  dec_y : s.phase = .dec → s.seq.y = s.blockWord ((s.seq.r.toNat + 1) % s.seq.n.toNat)

/-- The next event is the host's operation `op`: it is the host's turn, and `op` is its oldest pending operation. -/
abbrev State.hostIssues (s : State) (op : HostOp) : Prop := s.nextTurn = .host ∧ s.host.head? = some op

/-- The state from whose lists the turn and the host's oldest operation are taken, before that operation's effect. -/
def State.issued (s : State) : State := { s.popTurn with host := s.host.tail }

/-- The next event resets the block: power-on reset, or the host's write of an SRST word to CTRL. -/
def State.resetsNext (s : State) : Prop :=
  s.nextTurn = .powerOn ∨ ∃ op, s.hostIssues op ∧ op.isSoftReset = true

/-- A safe run: no number of steps from s ends in a fault or a refusal. -/
def State.Safe (s : State) : Prop := ∀ k, ∃ t, Host.Core.run core k s = .next t

end Sys2Proof.Machine
end

