-- ==== Sys2Proof/Certificates/Slice0/Obligations.lean ====
section
/-! DEFINITION. The statements for the provers. Each docstring names the rule of the spec it formalises. -/

open Sys2Proof
open Sys2Proof.Machine

/-! ### Encoding -/

/-- 30_encoding.md R80, R81: decode and encode agree both ways, for every word and every command, so no bit of a command word is
dropped and no word has two meanings. -/
def Obligations.DecodeExactlyInvertsEncode : Prop :=
  ∀ (w : Word) (i : Instr), decode w = .command i ↔ i.wf = true ∧ encode i = w

/-- R81: NOP, ENCRYPT and DECRYPT are the words 0, 1 and 2, SRST is every word with bit 31 set, and every other word is ILLEGAL,
by its value and by its fields. -/
def Obligations.EveryWordHasItsCommandClass : Prop :=
  ∀ w : Word,
    (decode w = .command .nop ↔ w = 0) ∧
    (decode w = .command .encrypt ↔ w = 1) ∧
    (decode w = .command .decrypt ↔ w = 2) ∧
    ((∃ ignored, decode w = .command (.srst ignored)) ↔ w.getLsbD 31 = true) ∧
    ((∃ why, decode w = .illegal why) ↔ 3 ≤ w.toNat ∧ w.toNat < 2 ^ 31) ∧
    ((∃ why, decode w = .illegal why) ↔
      w.getLsbD 31 = false ∧ (w.extractLsb' 2 29 ≠ 0 ∨ w.extractLsb' 0 2 = 3))

/-- R83: the rows of the opcode map select the commands by mask and match, and no word lies in two rows. -/
def Obligations.OpcodeRowsSelectTheirCommands : Prop :=
  ∀ (w : Word) (i : Instr),
    (w &&& rowMask i = rowMatch i ↔ ∃ j, decode w = .command j ∧ rowMatch j = rowMatch i ∧ rowMask j = rowMask i) ∧
    (∀ j, w &&& rowMask i = rowMatch i → w &&& rowMask j = rowMatch j → rowMatch i = rowMatch j) ∧
    ((i = .nop → rowMatch i = 0x00000000 ∧ rowMask i = 0xFFFFFFFF) ∧
      (i = .encrypt → rowMatch i = 0x00000001 ∧ rowMask i = 0xFFFFFFFF) ∧
      (i = .decrypt → rowMatch i = 0x00000002 ∧ rowMask i = 0xFFFFFFFF) ∧
      (∀ ignored, i = .srst ignored → rowMatch i = 0x80000000 ∧ rowMask i = 0x80000000))

/-- R81, words written out from the field table of R80. -/
def Obligations.WrittenOutWordsDecode : Prop :=
  decode 0x00000000 = .command .nop ∧
  decode 0x00000001 = .command .encrypt ∧
  decode 0x00000002 = .command .decrypt ∧
  decode 0x80000000 = .command (.srst 0) ∧
  decode 0x80000003 = .command (.srst 3) ∧
  decode 0x00000003 = .illegal .reservedOp ∧
  decode 0x00000005 = .illegal .reservedBits

/-! ### Reset -/

/-- 10_state.md R36, both columns: what power-on reset and SRST leave, from every state and in the reference configuration.
Nothing is said of the unspecified values. -/
def Obligations.ResetsLeaveTheValuesOfTheTable : Prop :=
  (∀ s : State, s.nextTurn = .powerOn →
    ∃ t, step s = .next t ∧ t.phase = .idle ∧ t.status = 0 ∧ t.fcode = .none ∧ t.done = false ∧ t.werr = false ∧ t.len = 0 ∧
      (∀ i : Fin 4, t.key[i] = 0) ∧ t.cap = BitVec.ofNat 32 s.params.nmax) ∧
  (∀ (s : State) (ignored : BitVec 31),
    ∃ t, exec (.srst ignored) s = .next t ∧ t.phase = .idle ∧ t.status = 0 ∧ t.fcode = .none ∧ t.done = false ∧
      t.werr = false ∧ t.len = 0 ∧ (∀ i : Fin 4, t.key[i] = 0) ∧ t.cap = BitVec.ofNat 32 s.params.nmax ∧
      (∀ i, t.blockWord i = s.blockWord i)) ∧
  (State.reset.phase = .idle ∧ State.reset.status = 0 ∧ State.reset.len = 0 ∧ (∀ i : Fin 4, State.reset.key[i] = 0) ∧
    State.reset.cap = 1024)

/-- The invariant holds after reset. -/
def Obligations.ResetStateMeetsTheInvariant : Prop := State.reset.Inv

/-- Every step keeps the invariant: the bounds of R31, R25, R143, the sum schedules of R110 and R116, the neighbour carries of R111
and R117, and the canonical form of the buffer. -/
def Obligations.EveryStepKeepsTheInvariant : Prop :=
  ∀ s t : State, s.Inv → step s = .next t → t.Inv

/-- No run from a state that meets the invariant ends in a fault or a refusal of the model: the engine never leaves the block
(R63), and every transaction and every command has an outcome (R177). -/
def Obligations.RunsFromTheInvariantAreSafe : Prop := ∀ s : State, s.Inv → s.Safe

/-! ### Commands -/

/-- 41_commands.md R141. -/
def Obligations.NopChangesNothing : Prop :=
  ∀ s : State,
    (s.phase = .idle → exec .nop s = .next s) ∧
    (s.busy = true → exec .nop s = .next { s with werr := true }) ∧
    (s.phase = .faulted → exec .nop s = .next s)

/-- R142, 70_reset_and_hazards.md R191: SRST in every phase, as a command and as the host's CTRL write of any word with bit 31 set,
with its frame: V, CAP and the host's side stay, and only the sequencer registers (and the model's count of draws) take a value
that nothing is said of. -/
def Obligations.SrstIsAcceptedInEveryPhase : Prop :=
  ∀ (s : State) (ignored : BitVec 31),
    (∃ (q : Sequencer) (d : Nat), exec (.srst ignored) s = .next { s with
      phase := .idle, fcode := .none, done := false, werr := false, len := 0, key := Vector.replicate 4 0, seq := q, draws := d }) ∧
    exec (.srst ignored) s = exec (.srst 0) s ∧
    (∀ w : Word, w.getLsbD 31 = true → s.hostIssues (.write 0 .word w) →
      ∃ (q : Sequencer) (d : Nat), step s = .next { s.issued with
        phase := .idle, fcode := .none, done := false, werr := false, len := 0, key := Vector.replicate 4 0, seq := q, draws := d
        answer := some .written })

/-- R144, AcceptEncrypt: with PHASE = IDLE and a legal LEN, the state after is this one; everything not named is unchanged. -/
def Obligations.EncryptIsAccepted : Prop :=
  ∀ s : State, s.phase = .idle → s.len ≠ 0 → s.len.toNat % 4 = 0 → s.len.toNat ≤ 4 * s.params.nmax →
    exec .encrypt s = .next { s with
      seq := { s.seq with
        n := BitVec.ofNat 32 (s.len.toNat / 4), rounds := BitVec.ofNat 32 (6 + 52 / (s.len.toNat / 4)), sum := 0,
        z := s.blockWord (s.len.toNat / 4 - 1), r := 0, cyc := 0 },
      done := false, phase := .enc }

/-- R145, AcceptDecrypt. -/
def Obligations.DecryptIsAccepted : Prop :=
  ∀ s : State, s.phase = .idle → s.len ≠ 0 → s.len.toNat % 4 = 0 → s.len.toNat ≤ 4 * s.params.nmax →
    exec .decrypt s = .next { s with
      seq := { s.seq with
        n := BitVec.ofNat 32 (s.len.toNat / 4), rounds := BitVec.ofNat 32 (6 + 52 / (s.len.toNat / 4)),
        sum := BitVec.ofNat 32 (6 + 52 / (s.len.toNat / 4)) * 0x9e3779b9, y := s.blockWord 0,
        r := BitVec.ofNat 32 (s.len.toNat / 4 - 1), cyc := 0 },
      done := false, phase := .dec }

/-- R143, 60_exceptions.md R172: the first failing length check in its order decides the code, and the fault changes PHASE and FCODE
only; KEY_LEN is never raised. -/
def Obligations.LengthChecksFaultInOrder : Prop :=
  ∀ (s : State) (i : Instr), i = .encrypt ∨ i = .decrypt → s.phase = .idle →
    (s.len = 0 → exec i s = .next { s with phase := .faulted, fcode := .lenZero }) ∧
    (s.len ≠ 0 → s.len.toNat % 4 ≠ 0 → exec i s = .next { s with phase := .faulted, fcode := .lenUnaligned }) ∧
    (s.len ≠ 0 → s.len.toNat % 4 = 0 → 4 * s.params.nmax < s.len.toNat →
      exec i s = .next { s with phase := .faulted, fcode := .lenRange }) ∧
    (s.len ≠ 0 → s.len.toNat % 4 = 0 → s.len.toNat ≤ 4 * s.params.nmax →
      ∃ t, exec i s = .next t ∧ t.busy = true ∧ t.fcode = s.fcode) ∧
    checkLen s.params s.len ≠ .keyLen

/-- 70 R196, 60 R175: outside IDLE every command but SRST is dropped, with WERR while BUSY and with no effect while FAULTED. -/
def Obligations.CommandsAreDroppedOutsideIdle : Prop :=
  ∀ (s : State) (i : Instr), i = .nop ∨ i = .encrypt ∨ i = .decrypt →
    (s.busy = true → exec i s = .next { s with werr := true }) ∧
    (s.phase = .faulted → exec i s = .next s)

/-- R84: what writing an ILLEGAL word to CTRL does in each phase. -/
def Obligations.IllegalWordsByPhase : Prop :=
  ∀ (s : State) (w : Word), w.getLsbD 31 = false → (w.extractLsb' 2 29 ≠ 0 ∨ w.extractLsb' 0 2 = 3) →
    s.hostIssues (.write 0 .word w) →
    (s.phase = .idle →
      step s = .next { s.issued with phase := .faulted, fcode := .illegalCmd, answer := some .written }) ∧
    (s.busy = true → step s = .next { s.issued with werr := true, answer := some .written }) ∧
    (s.phase = .faulted → step s = .next { s.issued with answer := some .written })

/-- 60 R177: a host transaction's outcome is decided in this order; the first step that applies decides it. -/
def Obligations.OutcomesInPriorityOrder : Prop :=
  ∀ (s : State) (a : BitVec 32) (n : Size) (v : Word),
    (s.hostIssues (.read a n) → busTarget s.params a n = none → step s = .next (s.issued.respond .busError)) ∧
    (s.hostIssues (.write a n v) →
      (busTarget s.params a n = none → step s = .next (s.issued.respond .busError)) ∧
      (busTarget s.params a n ≠ none → s.busy = true → ¬ (a = 0 ∧ v.getLsbD 31 = true) →
        step s = .next { s.issued with werr := true, answer := some .written }) ∧
      (busTarget s.params a n = some .ctrl → v.getLsbD 31 = true →
        step s = .next (s.issued.softReset.respond .written)) ∧
      (busTarget s.params a n = some .ctrl → v.getLsbD 31 = false → s.phase = .faulted →
        step s = .next (s.issued.respond .written)) ∧
      (busTarget s.params a n = some .ctrl → s.phase = .idle → 3 ≤ v.toNat → v.toNat < 2 ^ 31 →
        step s = .next { s.issued with phase := .faulted, fcode := .illegalCmd, answer := some .written }) ∧
      (busTarget s.params a n = some .ctrl → s.phase = .idle → v = 1 ∨ v = 2 →
        (s.len = 0 → step s = .next { s.issued with phase := .faulted, fcode := .lenZero, answer := some .written }) ∧
        (s.len ≠ 0 → s.len.toNat % 4 ≠ 0 →
          step s = .next { s.issued with phase := .faulted, fcode := .lenUnaligned, answer := some .written }) ∧
        (s.len ≠ 0 → s.len.toNat % 4 = 0 → 4 * s.params.nmax < s.len.toNat →
          step s = .next { s.issued with phase := .faulted, fcode := .lenRange, answer := some .written })))

/-- 41 R140, 30 R80: a step in which the host writes a command word to CTRL runs that command, in the state from which the turn and
the host's operation are taken, and the bus answers that the write was completed. -/
def Obligations.StepRunsTheWrittenCommand : Prop :=
  ∀ (s : State) (w : Word) (i : Instr), s.hostIssues (.write 0 .word w) → decode w = .command i →
    step s = mapNext (State.respond .written) (exec i s.issued)

/-! ### The engine -/

/-- 41 R150: the engine's turn runs EncStep in ENC and DecStep in DEC, and has no effect in IDLE and FAULTED. -/
def Obligations.EngineTurnsByPhase : Prop :=
  ∀ s : State, s.nextTurn = .engine →
    (s.phase = .enc → step s = encStep s.popTurn) ∧
    (s.phase = .dec → step s = decStep s.popTurn) ∧
    (s.phase = .idle ∨ s.phase = .faulted → step s = .next s.popTurn)

/-- R151, R153: EncStep, with its frame; the index range 0 ≤ R < N ≤ NMAX is R63's. -/
def Obligations.EncStepUpdatesOneWord : Prop :=
  ∀ s : State, s.nextTurn = .engine → s.phase = .enc → s.seq.r.toNat < s.seq.n.toNat → s.seq.n.toNat ≤ s.params.nmax →
    ∃ t, step s = .next t ∧
      (let sum := if s.seq.r = 0 then s.seq.sum + 0x9e3779b9 else s.seq.sum
       let y := s.blockWord ((s.seq.r.toNat + 1) % s.seq.n.toNat)
       let x := s.blockWord s.seq.r.toNat + mx sum y s.seq.z (keyWord s.key (keyIndex s.seq.r sum))
       (∀ a, t.blockByte a =
          if wordAddr s.seq.r.toNat ≤ a ∧ a < wordAddr s.seq.r.toNat + 4 then byteLane x (a - wordAddr s.seq.r.toNat)
          else s.blockByte a) ∧
       (∀ j, t.blockWord j = if j = s.seq.r.toNat then x else s.blockWord j) ∧
       (s.seq.r.toNat + 1 < s.seq.n.toNat →
          t = { s.popTurn with mem := t.mem, seq := { s.seq with sum := sum, z := x, r := s.seq.r + 1 } }) ∧
       (s.seq.r.toNat + 1 = s.seq.n.toNat → s.seq.cyc + 1 ≠ s.seq.rounds →
          t = { s.popTurn with mem := t.mem, seq := { s.seq with sum := sum, z := x, r := 0, cyc := s.seq.cyc + 1 } }) ∧
       (s.seq.r.toNat + 1 = s.seq.n.toNat → s.seq.cyc + 1 = s.seq.rounds →
          t = { s.popTurn with mem := t.mem, phase := .idle, done := true, seq := t.seq, draws := t.draws }))

/-- R152, R153: DecStep, with its frame. -/
def Obligations.DecStepUpdatesOneWord : Prop :=
  ∀ s : State, s.nextTurn = .engine → s.phase = .dec → s.seq.r.toNat < s.seq.n.toNat → s.seq.n.toNat ≤ s.params.nmax →
    ∃ t, step s = .next t ∧
      (let z := s.blockWord ((s.seq.r.toNat + s.seq.n.toNat - 1) % s.seq.n.toNat)
       let x := s.blockWord s.seq.r.toNat - mx s.seq.sum s.seq.y z (keyWord s.key (keyIndex s.seq.r s.seq.sum))
       (∀ a, t.blockByte a =
          if wordAddr s.seq.r.toNat ≤ a ∧ a < wordAddr s.seq.r.toNat + 4 then byteLane x (a - wordAddr s.seq.r.toNat)
          else s.blockByte a) ∧
       (∀ j, t.blockWord j = if j = s.seq.r.toNat then x else s.blockWord j) ∧
       (s.seq.r ≠ 0 → t = { s.popTurn with mem := t.mem, seq := { s.seq with y := x, r := s.seq.r - 1 } }) ∧
       (s.seq.r = 0 → s.seq.cyc + 1 ≠ s.seq.rounds →
          t = { s.popTurn with
            mem := t.mem
            seq := { s.seq with sum := s.seq.sum - 0x9e3779b9, y := x, r := s.seq.n - 1, cyc := s.seq.cyc + 1 } }) ∧
       (s.seq.r = 0 → s.seq.cyc + 1 = s.seq.rounds →
          t = { s.popTurn with mem := t.mem, phase := .idle, done := true, seq := t.seq, draws := t.draws }))

/-- R154, R156 for ENCRYPT: whatever the host does in between (short of a reset), after ROUNDS · N engine steps, and not before, the
command is complete and V[0 … N−1] is Encrypt(K, V0, N); K and every other byte of V are as they were. -/
def Obligations.EncryptCommandComputesEncrypt : Prop :=
  ∀ (s t : State) (ts rest : List Turn),
    s.Inv → s.phase = .idle → s.len ≠ 0 → s.len.toNat % 4 = 0 → s.len.toNat ≤ 4 * s.params.nmax →
    (∀ op ∈ s.host, op.isSoftReset = false) → exec .encrypt s = .next t →
    s.turns = ts ++ .engine :: rest → .powerOn ∉ ts →
    ts.count .engine + 1 = rounds (s.len.toNat / 4) * (s.len.toNat / 4) →
    (∀ k, k ≤ ts.length → ∃ u, Host.Core.run core k t = .next u ∧ u.busy = true) ∧
    ∃ u, Host.Core.run core (ts.length + 1) t = .next u ∧ u.phase = .idle ∧ u.done = true ∧
      u.block (s.len.toNat / 4) = encryptBlock s.key (s.block (s.len.toNat / 4)) ∧ u.key = s.key ∧ u.turns = rest ∧
      ∀ a, a < 0x1000 ∨ 0x1000 + s.len.toNat ≤ a → u.blockByte a = s.blockByte a

/-- R154, R156 for DECRYPT. -/
def Obligations.DecryptCommandComputesDecrypt : Prop :=
  ∀ (s t : State) (ts rest : List Turn),
    s.Inv → s.phase = .idle → s.len ≠ 0 → s.len.toNat % 4 = 0 → s.len.toNat ≤ 4 * s.params.nmax →
    (∀ op ∈ s.host, op.isSoftReset = false) → exec .decrypt s = .next t →
    s.turns = ts ++ .engine :: rest → .powerOn ∉ ts →
    ts.count .engine + 1 = rounds (s.len.toNat / 4) * (s.len.toNat / 4) →
    (∀ k, k ≤ ts.length → ∃ u, Host.Core.run core k t = .next u ∧ u.busy = true) ∧
    ∃ u, Host.Core.run core (ts.length + 1) t = .next u ∧ u.phase = .idle ∧ u.done = true ∧
      u.block (s.len.toNat / 4) = decryptBlock s.key (s.block (s.len.toNat / 4)) ∧ u.key = s.key ∧ u.turns = rest ∧
      ∀ a, a < 0x1000 ∨ 0x1000 + s.len.toNat ≤ a → u.blockByte a = s.blockByte a

/-- 70 R200, 41 R156: the engine is not starved. From every state that meets the invariant the block leaves BUSY after at most the
listed turns and one command's engine steps.
That the engine moves when the list of turns is used up is the model's choice (log 7), which weak fairness rests on. -/
def Obligations.EveryRunLeavesBusy : Prop :=
  ∀ s : State, s.Inv →
    ∃ k t, k ≤ s.turns.length + 6 * s.params.nmax + 52 ∧ Host.Core.run core k s = .next t ∧ t.busy = false

/-! ### The transform -/

/-- 40_transform.md R121: the round trip, for every N ≥ 2. -/
def Obligations.DecryptUndoesEncrypt : Prop :=
  ∀ (k : Vector Word 4) (v : List Word), 2 ≤ v.length → decryptBlock k (encryptBlock k v) = v

/-- 95_test_vectors.md 2.3 ("Dec(Enc) = V and Enc(Dec(V)) = V"): the other direction, for every N ≥ 2. -/
def Obligations.EncryptUndoesDecrypt : Prop :=
  ∀ (k : Vector Word 4) (v : List Word), 2 ≤ v.length → encryptBlock k (decryptBlock k v) = v

/-- R120: a single word follows the literal formulas for 58 cycles, and does not round-trip. -/
def Obligations.SingleWordBlocksFollowTheFormulas : Prop :=
  (∀ (k : Vector Word 4) (x : Word),
    encryptBlock k [x] = [(List.range 58).foldl (fun v c =>
      v + mx (BitVec.ofNat 32 (c + 1) * 0x9e3779b9) v v (keyWord k (keyIndex 0 (BitVec.ofNat 32 (c + 1) * 0x9e3779b9)))) x] ∧
    decryptBlock k [x] = [(List.range 58).foldl (fun v c =>
      v - mx (BitVec.ofNat 32 (58 - c) * 0x9e3779b9) v v (keyWord k (keyIndex 0 (BitVec.ofNat 32 (58 - c) * 0x9e3779b9)))) x]) ∧
  encryptBlock (Vector.replicate 4 0) [0] = [0xacc927b6] ∧
  decryptBlock (Vector.replicate 4 0) [0xacc927b6] = [0x9825c7f5]

/-- R110, R112, R115, R116: Encrypt's sum ends at ROUNDS * DELTA, where Decrypt's starts, and Decrypt's ends at 0; neither
transform changes the number of words. -/
def Obligations.SumSchedulesMeet : Prop :=
  ∀ (k : Vector Word 4) (v : List Word),
    (encryptPass k v).sum = BitVec.ofNat 32 (6 + 52 / v.length) * 0x9e3779b9 ∧
    startSum v.length = (encryptPass k v).sum ∧ (decryptPass k v).sum = 0 ∧
    (encryptBlock k v).length = v.length ∧ (decryptBlock k v).length = v.length

/-- R101: the table of rounds(N), for every N ≥ 1. -/
def Obligations.RoundsFollowTheTable : Prop :=
  ∀ n : Nat, 1 ≤ n → 6 ≤ rounds n ∧ rounds n = 6 + 52 / n ∧
    rounds n =
      if n = 1 then 58 else if n = 2 then 32 else if n = 3 then 23 else if n = 4 then 19 else if n = 5 then 16
      else if n = 6 then 14 else if n = 7 then 13 else if n = 8 then 12 else if n ≤ 10 then 11 else if n ≤ 13 then 10
      else if n ≤ 17 then 9 else if n ≤ 26 then 8 else if n ≤ 52 then 7 else 6

/-- R104: the key word index is r[1:0] ^ sum[3:2]. -/
def Obligations.KeyIndexReadsFourBits : Prop :=
  ∀ r sum : Word, keyIndex r sum = r.extractLsb' 0 2 ^^^ sum.extractLsb' 2 2

/-- R103: the corner cases of MX. -/
def Obligations.MixingFunctionCorners : Prop :=
  ∀ sum : Word, mx sum 0 0 0 = sum ∧
    mx sum 0xffffffff 0xffffffff 0xffffffff = 0xd8000012 ^^^ (sum ^^^ 0xffffffff)

/-- 20_memory.md R53: packing and unpacking are inverse, and byte b of the unpacked words is byte b mod 4 of word b div 4. -/
def Obligations.PackingIsLittleEndian : Prop :=
  (∀ bs : List Byte, bs.length % 4 = 0 → unpack (pack bs) = bs) ∧
  (∀ ws : List Word, pack (unpack ws) = ws ∧
    ∀ b, b < 4 * ws.length → (unpack ws)[b]? = some ((ws.getD (b / 4) 0).extractLsb' (8 * (b % 4)) 8))

/-! ### The host bus -/

/-- R51, R54, R60, 60 R183: which transactions are legal; an illegal one is answered BusError, with data 0, and changes no state of
the block; a legal one is never answered BusError. -/
def Obligations.IllegalTransactionsGetBusError : Prop :=
  ∀ (s : State) (a : BitVec 32) (n : Size) (v : Word),
    ((busTarget s.params a n).isSome = true ↔
      a.toNat % n.bytes = 0 ∧
      ((a.toNat < 0x010 ∧ n = .word) ∨ (0x010 ≤ a.toNat ∧ a.toNat < 0x020) ∨
        (0x1000 ≤ a.toNat ∧ a.toNat < 0x1000 + 4 * s.params.nmax))) ∧
    (busTarget s.params a n = none →
      (s.hostIssues (.read a n) → step s = .next { s.issued with answer := some .busError }) ∧
      (s.hostIssues (.write a n v) → step s = .next { s.issued with answer := some .busError }) ∧
      Answer.busError.value = 0) ∧
    (busTarget s.params a n ≠ none →
      (s.hostIssues (.read a n) → ∃ t w, step s = .next t ∧ t.answer = some (.data w)) ∧
      (s.hostIssues (.write a n v) → ∃ t, step s = .next t ∧ t.answer = some .written))

/-- R55, 10_state.md R24, R27: reads of CTRL, STATUS, LEN and CAP, in every phase. -/
def Obligations.RegisterReads : Prop :=
  ∀ s : State,
    (s.hostIssues (.read 0x000 .word) → step s = .next { s.issued with answer := some (.data 0) }) ∧
    (s.hostIssues (.read 0x004 .word) → step s = .next { s.issued with answer := some (.data s.status) }) ∧
    (s.hostIssues (.read 0x008 .word) → step s = .next { s.issued with answer := some (.data s.len) }) ∧
    (s.hostIssues (.read 0x00C .word) →
      step s = .next { s.issued with answer := some (.data (BitVec.ofNat 32 s.params.nmax)) })

/-- 10 R25, R30: the fields of STATUS; at most one of BUSY and FAULT is set, and on states that meet the invariant DONE = 1 implies
BUSY = 0, FCODE is 0 when FAULT is 0, and FCODE is none of the codes that R170 never produces. -/
def Obligations.StatusFields : Prop :=
  ∀ s : State,
    (s.status.getLsbD 0 = true ↔ s.phase = .enc ∨ s.phase = .dec) ∧
    (s.status.getLsbD 1 = s.done) ∧
    (s.status.getLsbD 2 = true ↔ s.phase = .faulted) ∧
    (s.status.getLsbD 3 = s.werr) ∧
    (s.status.extractLsb' 4 4 = s.fcode.bits) ∧
    (s.status.extractLsb' 8 24 = 0) ∧
    ¬ (s.status.getLsbD 0 = true ∧ s.status.getLsbD 2 = true) ∧
    (s.Inv →
      (s.status.getLsbD 1 = true → s.status.getLsbD 0 = false) ∧
      (s.status.getLsbD 2 = false → s.status.extractLsb' 4 4 = 0) ∧
      s.status.extractLsb' 4 4 ≠ 1 ∧ (s.status.extractLsb' 4 4).toNat < 6)

/-- 10 R21, 20 R55, R57: reads of the KEY window in every phase; each byte of the value is the key byte at its address, and a 4-byte
read gives K[i]. -/
def Obligations.KeyWindowReads : Prop :=
  ∀ (s : State) (a : BitVec 32) (n : Size), 0x010 ≤ a.toNat → a.toNat < 0x020 → a.toNat % n.bytes = 0 →
    s.hostIssues (.read a n) →
    ∃ v, step s = .next { s.issued with answer := some (.data v) } ∧
      (∀ t, t < n.bytes → byteLane v t =
        (s.key[(a.toNat - 0x010 + t) / 4]?.getD 0).extractLsb' (8 * ((a.toNat - 0x010 + t) % 4)) 8) ∧
      v.toNat < 2 ^ (8 * n.bytes) ∧
      (n = .word → some v = s.key[(a.toNat - 0x010) / 4]?)

/-- 20 R55, R57: reads of the DATA window while not BUSY; a 4-byte read gives V[i], a 2-byte read its upper or lower half, a 1-byte
read one of its bytes. -/
def Obligations.DataWindowReads : Prop :=
  ∀ (s : State) (a : BitVec 32) (n : Size), s.busy = false → 0x1000 ≤ a.toNat → a.toNat < 0x1000 + 4 * s.params.nmax →
    a.toNat % n.bytes = 0 → s.hostIssues (.read a n) →
    ∃ v, step s = .next { s.issued with answer := some (.data v) } ∧
      (∀ t, t < n.bytes → byteLane v t = s.blockByte (a.toNat + t)) ∧
      v = BitVec.setWidth 32 ((s.blockWord ((a.toNat - 0x1000) / 4)).extractLsb' (8 * (a.toNat % 4)) (8 * n.bytes))

/-- 70 R197: a DATA read while BUSY returns some value of 8·n bits, of which nothing more is said, and changes no state of the
block and no flag; only the model's count of draws may advance (log 5). -/
def Obligations.BusyDataReadsChangeNothing : Prop :=
  ∀ (s : State) (a : BitVec 32) (n : Size), s.busy = true → 0x1000 ≤ a.toNat → a.toNat < 0x1000 + 4 * s.params.nmax →
    a.toNat % n.bytes = 0 → s.hostIssues (.read a n) →
    ∃ (v : Word) (d : Nat), v.toNat < 2 ^ (8 * n.bytes) ∧
      step s = .next { s.issued with draws := d, answer := some (.data v) }

/-- 20 R59: a read has no side effect on any register, flag or word. -/
def Obligations.ReadsHaveNoSideEffects : Prop :=
  ∀ (s : State) (a : BitVec 32) (n : Size), s.hostIssues (.read a n) →
    ∃ (d : Nat) (answer : Answer), step s = .next { s.issued with draws := d, answer := some answer }

/-- 10 R23: LEN stores every value while not BUSY. -/
def Obligations.LenStoresEveryValue : Prop :=
  ∀ (s : State) (v : Word), s.busy = false → s.hostIssues (.write 0x008 .word v) →
    step s = .next { s.issued with len := v, answer := some .written }

/-- 20 R56: a write to the KEY window while not BUSY replaces the addressed key bytes and nothing else. -/
def Obligations.KeyWritesReplaceTheirBytes : Prop :=
  ∀ (s : State) (a : BitVec 32) (n : Size) (v : Word), s.busy = false → 0x010 ≤ a.toNat → a.toNat < 0x020 →
    a.toNat % n.bytes = 0 → s.hostIssues (.write a n v) →
    ∃ k : Vector Word 4, step s = .next { s.issued with key := k, answer := some .written } ∧
      ∀ j, j < 16 → keyByte k j =
        if a.toNat ≤ 0x010 + j ∧ 0x010 + j < a.toNat + n.bytes then byteLane v (0x010 + j - a.toNat) else keyByte s.key j

/-- 20 R56: a write to the DATA window while not BUSY replaces the addressed bytes; every other byte reads as before, and
nothing else changes. -/
def Obligations.DataWritesReplaceTheirBytes : Prop :=
  ∀ (s : State) (a : BitVec 32) (n : Size) (v : Word), s.busy = false → 0x1000 ≤ a.toNat →
    a.toNat < 0x1000 + 4 * s.params.nmax → a.toNat % n.bytes = 0 → s.hostIssues (.write a n v) →
    ∃ m : List Host.Cell, step s = .next { s.issued with mem := m, answer := some .written } ∧
      ∀ b, ({ s.issued with mem := m } : State).blockByte b =
        if a.toNat ≤ b ∧ b < a.toNat + n.bytes then byteLane v (b - a.toNat) else s.blockByte b

/-- 20 R61: writes to STATUS and CAP are ignored, but for WERR while BUSY; CTRL reads 0. -/
def Obligations.ReadOnlyRegistersIgnoreWrites : Prop :=
  ∀ (s : State) (v : Word) (a : BitVec 32), a = 0x004 ∨ a = 0x00C →
    (s.hostIssues (.write a .word v) → s.busy = false → step s = .next { s.issued with answer := some .written }) ∧
    (s.hostIssues (.write a .word v) → s.busy = true →
      step s = .next { s.issued with werr := true, answer := some .written }) ∧
    (s.hostIssues (.read 0x000 .word) → step s = .next { s.issued with answer := some (.data 0) })

/-- 70 R196: while BUSY every legal write but SRST to CTRL is dropped, sets WERR and changes nothing else; and WERR stays set until a
reset. -/
def Obligations.BusyWritesAreDropped : Prop :=
  (∀ (s : State) (a : BitVec 32) (n : Size) (v : Word), s.busy = true → busTarget s.params a n ≠ none →
    s.hostIssues (.write a n v) → ¬ (a = 0 ∧ v.getLsbD 31 = true) →
    step s = .next { s.issued with werr := true, answer := some .written }) ∧
  (∀ s t : State, s.werr = true → step s = .next t → t.werr = true ∨ s.resetsNext)

/-- 20 R59: writing the same value twice gives the same state as writing it once, everywhere but at CTRL. -/
def Obligations.RegisterWritesAreIdempotent : Prop :=
  ∀ (s t : State) (a : BitVec 32) (n : Size) (v : Word), s.Inv → a ≠ 0 → memWrite a n v s = .next t →
    memWrite a n v t = .next t

/-- 30 R85, WAIT: the poll of STATUS ends exactly when BUSY = 0, and else stays the host's next operation. -/
def Obligations.WaitEndsWhenNotBusy : Prop :=
  ∀ s : State, s.hostIssues hostWait →
    (s.busy = false → step s = .next { s.issued with answer := some (.data s.status) }) ∧
    (s.busy = true → step s = .next { s.popTurn with answer := some (.data s.status) })

/-! ### The whole machine -/

/-- 60 R174, R176: FAULTED and FCODE stay through every event but a reset, a reset leaves IDLE with FCODE = 0, and the engine takes
no step. -/
def Obligations.FaultsAreSticky : Prop :=
  ∀ s t : State, s.phase = .faulted → step s = .next t →
    ((¬ s.resetsNext ∧ t.phase = .faulted ∧ t.fcode = s.fcode) ∨ (s.resetsNext ∧ t.phase = .idle ∧ t.fcode = .none)) ∧
    (s.nextTurn = .engine → t = s.popTurn)

/-- 60 R171, R172, R173: a fault is raised only by the host's CTRL write in IDLE, of an ILLEGAL word or of ENCRYPT or DECRYPT with a
failing length check, and changes PHASE and FCODE only. -/
def Obligations.FaultsComeFromCommandWrites : Prop :=
  ∀ s t : State, step s = .next t → s.phase ≠ .faulted → t.phase = .faulted →
    s.phase = .idle ∧
    ∃ w, s.hostIssues (.write 0 .word w) ∧
      t = { s.issued with phase := .faulted, fcode := t.fcode, answer := some .written } ∧
      (((∃ why, decode w = .illegal why) ∧ t.fcode = .illegalCmd) ∨
        ((w = 1 ∨ w = 2) ∧ t.fcode = checkLen s.params s.len ∧ t.fcode ≠ .none))

/-- 10 R26: DONE becomes 1 at completion by an engine step, becomes 0 at acceptance of a command and at a reset, and no other event
changes it. -/
def Obligations.DoneChangesOnlyAsStated : Prop :=
  ∀ s t : State, step s = .next t → t.done ≠ s.done →
    (t.done = true ∧ s.nextTurn = .engine ∧ s.busy = true ∧ t.phase = .idle) ∨
    (t.done = false ∧ (s.resetsNext ∨
      (s.phase = .idle ∧ t.busy = true ∧
        (s.hostIssues (.write 0 .word 1) ∨ s.hostIssues (.write 0 .word 2)))))

/-- 10 R21, 20 R66, 70 R196: while a command runs, no event but a reset changes K, LEN, N or ROUNDS. -/
def Obligations.OperandsAreFixedWhileBusy : Prop :=
  ∀ s t : State, s.busy = true → step s = .next t →
    s.resetsNext ∨
    (t.key = s.key ∧ t.len = s.len ∧ (t.busy = true → t.seq.n = s.seq.n ∧ t.seq.rounds = s.seq.rounds ∧ t.phase = s.phase))

/-- 10 R27: no event changes CAP or a parameter. -/
def Obligations.CapIsConstant : Prop :=
  ∀ s t : State, step s = .next t → t.params = s.params ∧ t.cap = s.cap ∧ t.cap = BitVec.ofNat 32 s.params.nmax

/-- 10 R22, 20 R56, 41 R151, R152: the block buffer changes only by an engine step inside V[0 … N−1], by a host write while not
BUSY, or by power-on; SRST keeps it. -/
def Obligations.BlockBufferChangesOnlyAsStated : Prop :=
  ∀ (s t : State) (a : Nat), s.Inv → step s = .next t → t.blockByte a ≠ s.blockByte a →
    s.nextTurn = .powerOn ∨
    (s.nextTurn = .engine ∧ s.busy = true ∧ 0x1000 ≤ a ∧ a < 0x1000 + 4 * s.seq.n.toNat) ∨
    (s.busy = false ∧ ∃ b n v, s.hostIssues (.write b n v) ∧ b.toNat ≤ a ∧ a < b.toNat + n.bytes)

/-- 10 R32: the values of the sequencer registers outside a command are never observed: two runs from states that differ in them
alone, with the same draws and the same turns, agree after any number of steps in everything but those registers. -/
def Obligations.IdleSequencerIsNeverObserved : Prop :=
  ∀ (s : State) (q : Sequencer) (k : Nat), s.Inv → s.busy = false →
    ∃ t q', Host.Core.run core k s = .next t ∧ Host.Core.run core k { s with seq := q } = .next { t with seq := q' }

/-- The model's choice (log 12, and log 9 for the answer), no rule of the spec: a power-on turn keeps the parameters and the host's
side, that is the operations and turns still to come and the last answer. -/
def Obligations.PowerOnKeepsTheHostSide : Prop :=
  ∀ s : State, s.nextTurn = .powerOn →
    ∃ t, step s = .next t ∧ t.params = s.params ∧ t.host = s.host ∧ t.turns = s.turns.tail ∧ t.answer = s.answer
end

