-- ==== Sys2Proof/Laws/State.lean ====
section
/-! SUPPORT. One lemma per field of State per shared update, so that no proof unfolds a record update. -/

namespace Sys2Proof.Machine

variable (s : State)

@[simp] theorem State.setBlockWord_params (i : Nat) (v : Word) : (s.setBlockWord i v).params = s.params := rfl
@[simp] theorem State.setBlockWord_len (i : Nat) (v : Word) : (s.setBlockWord i v).len = s.len := rfl
@[simp] theorem State.setBlockWord_key (i : Nat) (v : Word) : (s.setBlockWord i v).key = s.key := rfl
@[simp] theorem State.setBlockWord_mem (i : Nat) (v : Word) : (s.setBlockWord i v).mem = Memory.store (wordAddr i) v 4 s.mem := rfl
@[simp] theorem State.setBlockWord_phase (i : Nat) (v : Word) : (s.setBlockWord i v).phase = s.phase := rfl
@[simp] theorem State.setBlockWord_fcode (i : Nat) (v : Word) : (s.setBlockWord i v).fcode = s.fcode := rfl
@[simp] theorem State.setBlockWord_done (i : Nat) (v : Word) : (s.setBlockWord i v).done = s.done := rfl
@[simp] theorem State.setBlockWord_werr (i : Nat) (v : Word) : (s.setBlockWord i v).werr = s.werr := rfl
@[simp] theorem State.setBlockWord_seq (i : Nat) (v : Word) : (s.setBlockWord i v).seq = s.seq := rfl
@[simp] theorem State.setBlockWord_epoch (i : Nat) (v : Word) : (s.setBlockWord i v).epoch = s.epoch := rfl
@[simp] theorem State.setBlockWord_draws (i : Nat) (v : Word) : (s.setBlockWord i v).draws = s.draws := rfl
@[simp] theorem State.setBlockWord_host (i : Nat) (v : Word) : (s.setBlockWord i v).host = s.host := rfl
@[simp] theorem State.setBlockWord_turns (i : Nat) (v : Word) : (s.setBlockWord i v).turns = s.turns := rfl
@[simp] theorem State.setBlockWord_answer (i : Nat) (v : Word) : (s.setBlockWord i v).answer = s.answer := rfl

@[simp] theorem State.raiseFault_params (code : FaultCode) : (s.raiseFault code).params = s.params := rfl
@[simp] theorem State.raiseFault_len (code : FaultCode) : (s.raiseFault code).len = s.len := rfl
@[simp] theorem State.raiseFault_key (code : FaultCode) : (s.raiseFault code).key = s.key := rfl
@[simp] theorem State.raiseFault_mem (code : FaultCode) : (s.raiseFault code).mem = s.mem := rfl
@[simp] theorem State.raiseFault_phase (code : FaultCode) : (s.raiseFault code).phase = .faulted := rfl
@[simp] theorem State.raiseFault_fcode (code : FaultCode) : (s.raiseFault code).fcode = code := rfl
@[simp] theorem State.raiseFault_done (code : FaultCode) : (s.raiseFault code).done = s.done := rfl
@[simp] theorem State.raiseFault_werr (code : FaultCode) : (s.raiseFault code).werr = s.werr := rfl
@[simp] theorem State.raiseFault_seq (code : FaultCode) : (s.raiseFault code).seq = s.seq := rfl
@[simp] theorem State.raiseFault_epoch (code : FaultCode) : (s.raiseFault code).epoch = s.epoch := rfl
@[simp] theorem State.raiseFault_draws (code : FaultCode) : (s.raiseFault code).draws = s.draws := rfl
@[simp] theorem State.raiseFault_host (code : FaultCode) : (s.raiseFault code).host = s.host := rfl
@[simp] theorem State.raiseFault_turns (code : FaultCode) : (s.raiseFault code).turns = s.turns := rfl
@[simp] theorem State.raiseFault_answer (code : FaultCode) : (s.raiseFault code).answer = s.answer := rfl

@[simp] theorem State.unspecifySequencer_params : s.unspecifySequencer.params = s.params := rfl
@[simp] theorem State.unspecifySequencer_len : s.unspecifySequencer.len = s.len := rfl
@[simp] theorem State.unspecifySequencer_key : s.unspecifySequencer.key = s.key := rfl
@[simp] theorem State.unspecifySequencer_mem : s.unspecifySequencer.mem = s.mem := rfl
@[simp] theorem State.unspecifySequencer_phase : s.unspecifySequencer.phase = s.phase := rfl
@[simp] theorem State.unspecifySequencer_fcode : s.unspecifySequencer.fcode = s.fcode := rfl
@[simp] theorem State.unspecifySequencer_done : s.unspecifySequencer.done = s.done := rfl
@[simp] theorem State.unspecifySequencer_werr : s.unspecifySequencer.werr = s.werr := rfl
@[simp] theorem State.unspecifySequencer_seq : s.unspecifySequencer.seq = Sequencer.unspecified s.draws := rfl
@[simp] theorem State.unspecifySequencer_epoch : s.unspecifySequencer.epoch = s.epoch := rfl
@[simp] theorem State.unspecifySequencer_draws : s.unspecifySequencer.draws = s.draws + 1 := rfl
@[simp] theorem State.unspecifySequencer_host : s.unspecifySequencer.host = s.host := rfl
@[simp] theorem State.unspecifySequencer_turns : s.unspecifySequencer.turns = s.turns := rfl
@[simp] theorem State.unspecifySequencer_answer : s.unspecifySequencer.answer = s.answer := rfl

@[simp] theorem State.softReset_params : s.softReset.params = s.params := rfl
@[simp] theorem State.softReset_len : s.softReset.len = 0 := rfl
@[simp] theorem State.softReset_key : s.softReset.key = Vector.replicate 4 0 := rfl
@[simp] theorem State.softReset_mem : s.softReset.mem = s.mem := rfl
@[simp] theorem State.softReset_phase : s.softReset.phase = .idle := rfl
@[simp] theorem State.softReset_fcode : s.softReset.fcode = .none := rfl
@[simp] theorem State.softReset_done : s.softReset.done = false := rfl
@[simp] theorem State.softReset_werr : s.softReset.werr = false := rfl
@[simp] theorem State.softReset_seq : s.softReset.seq = Sequencer.unspecified s.draws := rfl
@[simp] theorem State.softReset_epoch : s.softReset.epoch = s.epoch := rfl
@[simp] theorem State.softReset_draws : s.softReset.draws = s.draws + 1 := rfl
@[simp] theorem State.softReset_host : s.softReset.host = s.host := rfl
@[simp] theorem State.softReset_turns : s.softReset.turns = s.turns := rfl
@[simp] theorem State.softReset_answer : s.softReset.answer = s.answer := rfl

@[simp] theorem State.powerOn_params : s.powerOn.params = s.params := rfl
@[simp] theorem State.powerOn_len : s.powerOn.len = 0 := rfl
@[simp] theorem State.powerOn_key : s.powerOn.key = Vector.replicate 4 0 := rfl
@[simp] theorem State.powerOn_mem : s.powerOn.mem = [] := rfl
@[simp] theorem State.powerOn_phase : s.powerOn.phase = .idle := rfl
@[simp] theorem State.powerOn_fcode : s.powerOn.fcode = .none := rfl
@[simp] theorem State.powerOn_done : s.powerOn.done = false := rfl
@[simp] theorem State.powerOn_werr : s.powerOn.werr = false := rfl
@[simp] theorem State.powerOn_seq : s.powerOn.seq = Sequencer.unspecified s.draws := rfl
@[simp] theorem State.powerOn_epoch : s.powerOn.epoch = s.draws := rfl
@[simp] theorem State.powerOn_draws : s.powerOn.draws = s.draws + 1 := rfl
@[simp] theorem State.powerOn_host : s.powerOn.host = s.host := rfl
@[simp] theorem State.powerOn_turns : s.powerOn.turns = s.turns := rfl
@[simp] theorem State.powerOn_answer : s.powerOn.answer = s.answer := rfl

@[simp] theorem State.dropWrite_params : s.dropWrite.params = s.params := rfl
@[simp] theorem State.dropWrite_len : s.dropWrite.len = s.len := rfl
@[simp] theorem State.dropWrite_key : s.dropWrite.key = s.key := rfl
@[simp] theorem State.dropWrite_mem : s.dropWrite.mem = s.mem := rfl
@[simp] theorem State.dropWrite_phase : s.dropWrite.phase = s.phase := rfl
@[simp] theorem State.dropWrite_fcode : s.dropWrite.fcode = s.fcode := rfl
@[simp] theorem State.dropWrite_done : s.dropWrite.done = s.done := rfl
@[simp] theorem State.dropWrite_werr : s.dropWrite.werr = true := rfl
@[simp] theorem State.dropWrite_seq : s.dropWrite.seq = s.seq := rfl
@[simp] theorem State.dropWrite_epoch : s.dropWrite.epoch = s.epoch := rfl
@[simp] theorem State.dropWrite_draws : s.dropWrite.draws = s.draws := rfl
@[simp] theorem State.dropWrite_host : s.dropWrite.host = s.host := rfl
@[simp] theorem State.dropWrite_turns : s.dropWrite.turns = s.turns := rfl
@[simp] theorem State.dropWrite_answer : s.dropWrite.answer = s.answer := rfl

@[simp] theorem State.complete_params : s.complete.params = s.params := rfl
@[simp] theorem State.complete_len : s.complete.len = s.len := rfl
@[simp] theorem State.complete_key : s.complete.key = s.key := rfl
@[simp] theorem State.complete_mem : s.complete.mem = s.mem := rfl
@[simp] theorem State.complete_phase : s.complete.phase = .idle := rfl
@[simp] theorem State.complete_fcode : s.complete.fcode = s.fcode := rfl
@[simp] theorem State.complete_done : s.complete.done = true := rfl
@[simp] theorem State.complete_werr : s.complete.werr = s.werr := rfl
@[simp] theorem State.complete_seq : s.complete.seq = Sequencer.unspecified s.draws := rfl
@[simp] theorem State.complete_epoch : s.complete.epoch = s.epoch := rfl
@[simp] theorem State.complete_draws : s.complete.draws = s.draws + 1 := rfl
@[simp] theorem State.complete_host : s.complete.host = s.host := rfl
@[simp] theorem State.complete_turns : s.complete.turns = s.turns := rfl
@[simp] theorem State.complete_answer : s.complete.answer = s.answer := rfl

@[simp] theorem State.respond_params (a : Answer) : (s.respond a).params = s.params := rfl
@[simp] theorem State.respond_len (a : Answer) : (s.respond a).len = s.len := rfl
@[simp] theorem State.respond_key (a : Answer) : (s.respond a).key = s.key := rfl
@[simp] theorem State.respond_mem (a : Answer) : (s.respond a).mem = s.mem := rfl
@[simp] theorem State.respond_phase (a : Answer) : (s.respond a).phase = s.phase := rfl
@[simp] theorem State.respond_fcode (a : Answer) : (s.respond a).fcode = s.fcode := rfl
@[simp] theorem State.respond_done (a : Answer) : (s.respond a).done = s.done := rfl
@[simp] theorem State.respond_werr (a : Answer) : (s.respond a).werr = s.werr := rfl
@[simp] theorem State.respond_seq (a : Answer) : (s.respond a).seq = s.seq := rfl
@[simp] theorem State.respond_epoch (a : Answer) : (s.respond a).epoch = s.epoch := rfl
@[simp] theorem State.respond_draws (a : Answer) : (s.respond a).draws = s.draws := rfl
@[simp] theorem State.respond_host (a : Answer) : (s.respond a).host = s.host := rfl
@[simp] theorem State.respond_turns (a : Answer) : (s.respond a).turns = s.turns := rfl
@[simp] theorem State.respond_answer (a : Answer) : (s.respond a).answer = some a := rfl

@[simp] theorem State.popTurn_params : s.popTurn.params = s.params := rfl
@[simp] theorem State.popTurn_len : s.popTurn.len = s.len := rfl
@[simp] theorem State.popTurn_key : s.popTurn.key = s.key := rfl
@[simp] theorem State.popTurn_mem : s.popTurn.mem = s.mem := rfl
@[simp] theorem State.popTurn_phase : s.popTurn.phase = s.phase := rfl
@[simp] theorem State.popTurn_fcode : s.popTurn.fcode = s.fcode := rfl
@[simp] theorem State.popTurn_done : s.popTurn.done = s.done := rfl
@[simp] theorem State.popTurn_werr : s.popTurn.werr = s.werr := rfl
@[simp] theorem State.popTurn_seq : s.popTurn.seq = s.seq := rfl
@[simp] theorem State.popTurn_epoch : s.popTurn.epoch = s.epoch := rfl
@[simp] theorem State.popTurn_draws : s.popTurn.draws = s.draws := rfl
@[simp] theorem State.popTurn_host : s.popTurn.host = s.host := rfl
@[simp] theorem State.popTurn_turns : s.popTurn.turns = s.turns.tail := rfl
@[simp] theorem State.popTurn_answer : s.popTurn.answer = s.answer := rfl

end Sys2Proof.Machine
end

