-- ==== Sys2Proof/Laws/Memory.lean ====
section
/-! SUPPORT. The block buffer: reads after writes, the canonical form, byte lanes. -/

namespace Sys2Proof.Machine

/-! ### One byte -/

theorem Memory.get_set (a b : Nat) (v : Byte) (m : List Host.Cell) :
    Memory.get a (Memory.set b v m) = if a = b then some v else Memory.get a m := by
  induction m with
  | nil => by_cases h : a = b <;> simp [Memory.set, Memory.get, h, eq_comm]
  | cons c m ih =>
    unfold Memory.set
    by_cases h1 : b < c.1
    · by_cases h : a = b <;> simp [h1, Memory.get, h, eq_comm]
    · by_cases h2 : b = c.1
      · by_cases h : a = b
        · simp [h, h2, Memory.get]
        · have h' : c.1 ≠ a := fun e => h (by omega)
          simp [Memory.get, h2, h', show ¬ a = c.1 from fun e => h' e.symm]
      · rw [if_neg h1, if_neg h2]
        by_cases h3 : c.1 = a
        · have h' : a ≠ b := by omega
          simp [Memory.get, h3, h']
        · simp [Memory.get, h3, ih]

theorem Memory.above_set {lo a : Nat} {b : Byte} {m : List Host.Cell} (hlo : lo < a)
    (h : Memory.above lo m = true) : Memory.above lo (Memory.set a b m) = true := by
  induction m generalizing lo with
  | nil => simp [Memory.set, Memory.above, hlo]
  | cons c m ih =>
    simp only [Memory.above, Bool.and_eq_true, decide_eq_true_eq] at h
    unfold Memory.set
    by_cases h1 : a < c.1
    · simp [h1, Memory.above, hlo, h.2]
    · by_cases h2 : a = c.1
      · simp [h2, Memory.above, h.1, h.2]
      · simp [h1, h2, Memory.above, h.1, ih (by omega) h.2]

theorem Memory.wf_set {a : Nat} {b : Byte} {m : List Host.Cell} (h : Memory.wf m = true) :
    Memory.wf (Memory.set a b m) = true := by
  cases m with
  | nil => rfl
  | cons c m =>
    simp only [Memory.wf] at h
    unfold Memory.set
    by_cases h1 : a < c.1
    · simp [h1, Memory.wf, Memory.above, h]
    · by_cases h2 : a = c.1
      · simp [h2, Memory.wf, h]
      · simp [h1, h2, Memory.wf, Memory.above_set (show c.1 < a by omega) h]

theorem Memory.inWindow_set {p : Params} {a : Nat} {b : Byte} {m : List Host.Cell} (hlo : dataBase ≤ a)
    (hhi : a < dataBase + 4 * p.nmax) (h : Memory.inWindow p m = true) :
    Memory.inWindow p (Memory.set a b m) = true := by
  induction m with
  | nil => simp [Memory.set, Memory.inWindow, hlo, hhi]
  | cons c m ih =>
    have hc := h
    simp only [Memory.inWindow, List.all_cons, Bool.and_eq_true, decide_eq_true_eq] at hc ih
    unfold Memory.set
    by_cases h1 : a < c.1
    · simp [h1, Memory.inWindow, hlo, hhi] at h ⊢; exact h
    · by_cases h2 : a = c.1
      · subst h2
        simp only [lt_irrefl, if_true, if_false, Memory.inWindow, List.all_cons, Bool.and_eq_true, decide_eq_true_eq]
        exact ⟨⟨hlo, hhi⟩, hc.2⟩
      · simp only [h1, h2, if_false, Memory.inWindow, List.all_cons, Bool.and_eq_true, decide_eq_true_eq]
        exact ⟨hc.1, ih hc.2⟩

/-! ### Several bytes -/

theorem Memory.get_store (a b : Nat) (v : Word) (n : Nat) (m : List Host.Cell) :
    Memory.get a (Memory.store b v n m) = if b ≤ a ∧ a < b + n then some (byteLane v (a - b)) else Memory.get a m := by
  induction n with
  | zero => simp only [Memory.store, Nat.add_zero]; rw [if_neg (by omega)]
  | succ n ih =>
    simp only [Memory.store, Memory.get_set, ih]
    by_cases h : a = b + n
    · simp [h]
    · by_cases h' : b ≤ a ∧ a < b + n
      · simp [h, h', show a < b + (n + 1) by omega]
      · rw [if_neg h, if_neg h', if_neg (by omega)]

theorem Memory.wf_store {a : Nat} {v : Word} {n : Nat} {m : List Host.Cell} (h : Memory.wf m = true) :
    Memory.wf (Memory.store a v n m) = true := by
  induction n with
  | zero => exact h
  | succ n ih => exact Memory.wf_set ih

theorem Memory.inWindow_store {p : Params} {a : Nat} {v : Word} {n : Nat} {m : List Host.Cell} (hlo : dataBase ≤ a)
    (hhi : a + n ≤ dataBase + 4 * p.nmax) (h : Memory.inWindow p m = true) :
    Memory.inWindow p (Memory.store a v n m) = true := by
  induction n with
  | zero => exact h
  | succ n ih => exact Memory.inWindow_set (by omega) (by omega) (ih (by omega))

/-! ### The canonical form: equal reads are equal data -/

theorem Memory.get_eq_none_of_above {lo a : Nat} {m : List Host.Cell} (h : Memory.above lo m = true) (ha : a ≤ lo) :
    Memory.get a m = none := by
  induction m generalizing lo with
  | nil => rfl
  | cons c m ih =>
    simp only [Memory.above, Bool.and_eq_true, decide_eq_true_eq] at h
    simp [Memory.get, show c.1 ≠ a by omega, ih h.2 (by omega)]

theorem Memory.eq_of_get_eq {m m' : List Host.Cell} (h : Memory.wf m = true) (h' : Memory.wf m' = true)
    (e : ∀ a, Memory.get a m = Memory.get a m') : m = m' := by
  induction m generalizing m' with
  | nil =>
    cases m' with
    | nil => rfl
    | cons c m' => have := e c.1; simp [Memory.get] at this
  | cons c m ih =>
    cases m' with
    | nil => have := e c.1; simp [Memory.get] at this
    | cons d m' =>
      simp only [Memory.wf] at h h'
      have wf_tail : ∀ {lo : Nat} {l : List Host.Cell}, Memory.above lo l = true → Memory.wf l = true := by
        intro lo l hl
        cases l with
        | nil => rfl
        | cons x l => simp only [Memory.above, Bool.and_eq_true] at hl; exact hl.2
      have hcd : c.1 = d.1 := by
        rcases Nat.lt_trichotomy c.1 d.1 with hlt | heq | hgt
        · have := e c.1
          simp [Memory.get, show d.1 ≠ c.1 by omega, Memory.get_eq_none_of_above h' (Nat.le_of_lt hlt)] at this
        · exact heq
        · have := e d.1
          simp [Memory.get, show c.1 ≠ d.1 by omega, Memory.get_eq_none_of_above h (Nat.le_of_lt hgt)] at this
      have hv : c.2 = d.2 := by
        have := e c.1
        simpa [Memory.get, hcd] using this
      have htail : m = m' := by
        refine ih (wf_tail h) (wf_tail h') fun a => ?_
        by_cases ha : a = c.1
        · rw [Memory.get_eq_none_of_above h (by omega), Memory.get_eq_none_of_above h' (by omega)]
        · have := e a
          simpa [Memory.get, show c.1 ≠ a from fun x => ha x.symm, show d.1 ≠ a by omega] using this
      rw [htail, Prod.ext hcd hv]

/-! ### Byte lanes -/

/-- The four lanes of a word put together are the word (R52). -/
theorem gather_byteLane (w : Word) (j : Nat) (f : Nat → Byte) (h : ∀ t, t < 4 → f (j + t) = byteLane w t) :
    gather f j 4 = w := by
  simp only [gather, h 0 (by omega), h 1 (by omega), h 2 (by omega), h 3 (by omega)]
  apply BitVec.eq_of_getLsbD_eq
  intro i hi
  simp only [byteLane, BitVec.getLsbD_or, BitVec.getLsbD_shiftLeft, BitVec.getLsbD_setWidth, BitVec.getLsbD_extractLsb']
  interval_cases i <;> simp

theorem gather_congr {f g : Nat → Byte} {j n : Nat} (h : ∀ t, t < n → f (j + t) = g (j + t)) :
    gather f j n = gather g j n := by
  induction n with
  | zero => rfl
  | succ n ih => simp only [gather, ih fun t ht => h t (by omega), h n (by omega)]

/-- Byte t of a gathered value is the byte it was gathered from (R57). -/
theorem byteLane_gather (f : Nat → Byte) (j n t : Nat) (hn : n ≤ 4) (ht : t < n) :
    byteLane (gather f j n) t = f (j + t) := by
  apply BitVec.eq_of_getLsbD_eq
  intro i hi
  have h4 : n = 1 ∨ n = 2 ∨ n = 3 ∨ n = 4 := by omega
  rcases h4 with rfl | rfl | rfl | rfl <;> interval_cases t <;>
    simp only [gather, byteLane, BitVec.getLsbD_or, BitVec.getLsbD_shiftLeft, BitVec.getLsbD_setWidth,
      BitVec.getLsbD_extractLsb'] <;> interval_cases i <;> simp

/-- The bytes above an n-byte value are 0: it is zero-extended (R55). -/
theorem byteLane_gather_high (f : Nat → Byte) (j n t : Nat) (hn : n ≤ 4) (ht : n ≤ t) :
    byteLane (gather f j n) t = 0 := by
  apply BitVec.eq_of_getLsbD_eq
  intro i hi
  simp only [byteLane, BitVec.getLsbD_extractLsb', hi, decide_true, Bool.true_and]
  have h4 : n = 0 ∨ n = 1 ∨ n = 2 ∨ n = 3 ∨ n = 4 := by omega
  rcases h4 with rfl | rfl | rfl | rfl | rfl <;>
    simp [gather, BitVec.getLsbD_or, BitVec.getLsbD_shiftLeft, BitVec.getLsbD_setWidth] <;>
    and_intros <;> intros <;> apply BitVec.getLsbD_of_ge <;> omega

theorem byteLane_setByteLane (w : Word) (l t : Nat) (b : Byte) (hl : l < 4) (ht : t < 4) :
    byteLane (setByteLane w l b) t = if t = l then b else byteLane w t := by
  apply BitVec.eq_of_getLsbD_eq
  intro i hi
  interval_cases l <;> interval_cases t <;> interval_cases i <;> simp [byteLane, setByteLane]

theorem word_eq_of_byteLane {v w : Word} (h : ∀ t, t < 4 → byteLane v t = byteLane w t) : v = w := by
  rw [← gather_byteLane v 0 (byteLane v) (by simp), ← gather_byteLane w 0 (byteLane w) (by simp)]
  exact gather_congr (by simpa using h)

/-! ### Block bytes and block words -/

theorem State.blockByte_congr {s t : State} (hm : s.mem = t.mem) (he : s.epoch = t.epoch) : s.blockByte = t.blockByte := by
  funext a; simp [State.blockByte, State.unlistedByte, hm, he]

theorem State.blockWord_congr {s t : State} (hm : s.mem = t.mem) (he : s.epoch = t.epoch) : s.blockWord = t.blockWord := by
  funext i; simp [State.blockWord, State.blockByte_congr hm he]

theorem State.blockByte_setBlockWord (s : State) (i : Nat) (v : Word) (a : Nat) :
    (s.setBlockWord i v).blockByte a =
      if wordAddr i ≤ a ∧ a < wordAddr i + 4 then byteLane v (a - wordAddr i) else s.blockByte a := by
  simp only [State.blockByte, State.unlistedByte, State.setBlockWord_mem, State.setBlockWord_epoch, Memory.get_store]
  split <;> rfl

theorem State.blockWord_setBlockWord (s : State) (i j : Nat) (v : Word) :
    (s.setBlockWord i v).blockWord j = if j = i then v else s.blockWord j := by
  by_cases h : j = i
  · subst h
    rw [if_pos rfl]
    refine gather_byteLane v _ _ fun t ht => ?_
    rw [State.blockByte_setBlockWord, if_pos (by omega)]
    congr 1; omega
  · rw [if_neg h]
    refine gather_congr fun t ht => ?_
    rw [State.blockByte_setBlockWord, if_neg]
    simp only [wordAddr]; omega

/-! ### V[0 … n−1] as a list -/

@[simp] theorem State.block_length (s : State) (n : Nat) : (s.block n).length = n := by simp [State.block]

theorem State.block_getD (s : State) {n i : Nat} (h : i < n) : (s.block n).getD i 0 = s.blockWord i := by
  simp [State.block, h]

/-- A state in which one word differs has the block with that word replaced. -/
theorem State.block_set {s t : State} {r : Nat} {x : Word} (n : Nat)
    (h : ∀ j, t.blockWord j = if j = r then x else s.blockWord j) : t.block n = (s.block n).set r x := by
  apply List.ext_getElem
  · simp [State.block]
  · intro i h1 h2
    simp [State.block, List.getElem_set, h]
    split <;> split <;> first | rfl | omega

end Sys2Proof.Machine
end

