-- ==== Sys2Proof/Laws/Ops.lean ====
section
/-! SUPPORT. One lemma per shared operation that says what it can do: the length check, the phase gate of a command, the register
map, reads and writes of the bus, and the three kinds of step. -/

namespace Sys2Proof.Machine

/-! ### Flags and phases -/

@[simp] theorem Phase.busy_eq_true (p : Phase) : p.busy = true ↔ p = .enc ∨ p = .dec := by cases p <;> decide

theorem State.busy_iff (s : State) : s.busy = true ↔ s.phase = .enc ∨ s.phase = .dec := Phase.busy_eq_true _

theorem State.not_busy_iff (s : State) : s.busy = false ↔ s.phase = .idle ∨ s.phase = .faulted := by
  unfold State.busy; cases s.phase <;> decide

theorem State.acceptInIdle_idle (f : State → State) {s : State} (h : s.phase = .idle) : s.acceptInIdle f = f s := by
  simp [State.acceptInIdle, h]

theorem State.acceptInIdle_busy (f : State → State) {s : State} (h : s.busy = true) : s.acceptInIdle f = s.dropWrite := by
  rcases (State.busy_iff s).1 h with h | h <;> simp [State.acceptInIdle, h]

theorem State.acceptInIdle_faulted (f : State → State) {s : State} (h : s.phase = .faulted) : s.acceptInIdle f = s := by
  simp [State.acceptInIdle, h]

/-- Every command has a next state in every phase. -/
theorem exec_answers_next (i : Instr) (s : State) : ∃ t, exec i s = .next t := by
  cases i <;> exact ⟨_, rfl⟩

theorem command_answers_next (w : Word) (s : State) : ∃ t, command w s = .next t := by
  unfold command
  split
  · exact exec_answers_next _ s
  · exact ⟨_, rfl⟩

/-! ### The length check (R143) -/

theorem lowBits_ne_zero_iff (w : Word) : w.extractLsb' 0 2 ≠ 0 ↔ w.toNat % 4 ≠ 0 := by
  rw [Ne, ← BitVec.toNat_inj]
  simp [BitVec.extractLsb'_toNat]

theorem checkLen_zero {p : Params} {len : Word} (h : len = 0) : checkLen p len = .lenZero := by simp [checkLen, h]

theorem checkLen_unaligned {p : Params} {len : Word} (h : len ≠ 0) (h4 : len.toNat % 4 ≠ 0) :
    checkLen p len = .lenUnaligned := by
  rw [checkLen, if_neg h, if_pos ((lowBits_ne_zero_iff len).2 h4)]

theorem checkLen_range {p : Params} {len : Word} (h : len ≠ 0) (h4 : len.toNat % 4 = 0) (hr : 4 * p.nmax < len.toNat) :
    checkLen p len = .lenRange := by
  rw [checkLen, if_neg h, if_neg (fun x => (lowBits_ne_zero_iff len).1 x h4), if_pos hr]

theorem checkLen_ok_iff {p : Params} {len : Word} :
    checkLen p len = .none ↔ len ≠ 0 ∧ len.toNat % 4 = 0 ∧ len.toNat ≤ 4 * p.nmax := by
  by_cases h : len = 0
  · rw [checkLen_zero h]; simp [h]
  · by_cases h4 : len.toNat % 4 = 0
    · by_cases hr : 4 * p.nmax < len.toNat
      · rw [checkLen_range h h4 hr]
        simp only [reduceCtorEq, false_iff]
        omega
      · rw [checkLen, if_neg h, if_neg (fun x => (lowBits_ne_zero_iff len).1 x h4), if_neg hr]
        exact ⟨fun _ => ⟨h, h4, by omega⟩, fun _ => rfl⟩
    · simp [checkLen_unaligned h h4, h4]

theorem checkLen_ne_keyLen (p : Params) (len : Word) : checkLen p len ≠ .keyLen := by
  unfold checkLen; split_ifs <;> decide

theorem wordCount_toNat (len : Word) : (wordCount len).toNat = len.toNat / 4 := by
  simp [wordCount]

/-! ### The register map (R51, R54) -/

theorem regionAt_eq_some {p : Params} {a : Nat} {g : Region} (h : regionAt p a = some g) :
    (g = .ctrl ∧ a < 0x004) ∨ (g = .status ∧ 0x004 ≤ a ∧ a < 0x008) ∨ (g = .len ∧ 0x008 ≤ a ∧ a < 0x00C) ∨
    (g = .cap ∧ 0x00C ≤ a ∧ a < 0x010) ∨ (g = .key (a - 0x010) ∧ 0x010 ≤ a ∧ a < 0x020) ∨
    (g = .data (a - 0x1000) ∧ 0x1000 ≤ a ∧ a < 0x1000 + 4 * p.nmax) := by
  revert h
  unfold regionAt keyBase dataBase
  split_ifs <;> simp <;> intro h <;> subst h <;> simp <;> omega

theorem regionAt_key {p : Params} {a : Nat} (h : 0x010 ≤ a) (h' : a < 0x020) :
    regionAt p a = some (.key (a - 0x010)) := by
  unfold regionAt keyBase dataBase
  rw [if_neg (by omega), if_neg (by omega), if_neg (by omega), if_neg (by omega), if_pos h']

theorem regionAt_data {p : Params} {a : Nat} (h : 0x1000 ≤ a) (h' : a < 0x1000 + 4 * p.nmax) :
    regionAt p a = some (.data (a - 0x1000)) := by
  unfold regionAt keyBase dataBase
  rw [if_neg (by omega), if_neg (by omega), if_neg (by omega), if_neg (by omega), if_neg (by omega), if_neg (by omega),
    if_pos (by omega)]

theorem regionAt_isSome_iff {p : Params} {a : Nat} :
    (regionAt p a).isSome = true ↔ a < 0x020 ∨ (0x1000 ≤ a ∧ a < 0x1000 + 4 * p.nmax) := by
  unfold regionAt keyBase dataBase
  split_ifs <;> simp <;> omega

theorem busTarget_eq_some {p : Params} {a : BitVec 32} {n : Size} {g : Region} :
    busTarget p a n = some g ↔ a.toNat % n.bytes = 0 ∧ regionAt p a.toNat = some g ∧ g.allows n = true := by
  have last : ∀ g, regionAt p a.toNat = some g → a.toNat % n.bytes = 0 → g.allows n = true →
      (regionAt p (a.toNat + n.bytes - 1)).isSome = true := by
    intro g hg ha hn
    have h := regionAt_eq_some hg
    rw [regionAt_isSome_iff]
    cases n <;> simp only [Size.bytes] at *
    · omega
    · rcases h with ⟨rfl, -⟩ | ⟨rfl, -⟩ | ⟨rfl, -⟩ | ⟨rfl, -⟩ | ⟨-, h⟩ | ⟨-, h⟩ <;> first | omega | simp [Region.allows] at hn
    · omega
  unfold busTarget
  rcases hg : regionAt p a.toNat with _ | g'
  · simp
  · rcases hl : regionAt p (a.toNat + n.bytes - 1) with _ | l
    · simp only [reduceCtorEq, false_iff, Option.some.injEq]
      rintro ⟨ha, rfl, hn⟩
      have := last g' hg ha hn
      simp [hl] at this
    · simp only [Option.some.injEq]
      constructor
      · intro h
        by_cases hc : a.toNat % n.bytes = 0 ∧ g'.allows n = true
        · rw [if_pos hc] at h
          have e : g' = g := by simpa using h
          exact ⟨hc.1, e, e ▸ hc.2⟩
        · rw [if_neg hc] at h; simp at h
      · rintro ⟨ha, rfl, hn⟩
        rw [if_pos ⟨ha, hn⟩]

theorem busTarget_ctrl_iff {p : Params} {a : BitVec 32} {n : Size} :
    busTarget p a n = some .ctrl ↔ a = 0 ∧ n = .word := by
  rw [busTarget_eq_some]
  constructor
  · rintro ⟨ha, hg, hn⟩
    have hw : n = .word := by cases n <;> simp [Region.allows] at hn ⊢
    rcases regionAt_eq_some hg with ⟨-, h⟩ | ⟨h, -⟩ | ⟨h, -⟩ | ⟨h, -⟩ | ⟨h, -⟩ | ⟨h, -⟩ <;> try cases h
    subst hw
    refine ⟨?_, rfl⟩
    apply BitVec.eq_of_toNat_eq
    simp only [Size.bytes] at ha
    simp; omega
  · rintro ⟨rfl, rfl⟩
    exact ⟨rfl, rfl, rfl⟩

theorem busTarget_status_iff {p : Params} {a : BitVec 32} {n : Size} :
    busTarget p a n = some .status ↔ a.toNat = 0x004 ∧ n = .word := by
  rw [busTarget_eq_some]
  constructor
  · rintro ⟨ha, hg, hn⟩
    have hw : n = .word := by cases n <;> simp [Region.allows] at hn ⊢
    subst hw
    simp only [Size.bytes] at ha
    rcases regionAt_eq_some hg with ⟨h, -⟩ | ⟨-, h⟩ | ⟨h, -⟩ | ⟨h, -⟩ | ⟨h, -⟩ | ⟨h, -⟩ <;> first | exact ⟨by omega, rfl⟩ | cases h
  · rintro ⟨ha, rfl⟩
    rw [ha]
    exact ⟨rfl, rfl, rfl⟩

theorem busTarget_len_iff {p : Params} {a : BitVec 32} {n : Size} :
    busTarget p a n = some .len ↔ a.toNat = 0x008 ∧ n = .word := by
  rw [busTarget_eq_some]
  constructor
  · rintro ⟨ha, hg, hn⟩
    have hw : n = .word := by cases n <;> simp [Region.allows] at hn ⊢
    subst hw
    simp only [Size.bytes] at ha
    rcases regionAt_eq_some hg with ⟨h, -⟩ | ⟨h, -⟩ | ⟨-, h⟩ | ⟨h, -⟩ | ⟨h, -⟩ | ⟨h, -⟩ <;> first | exact ⟨by omega, rfl⟩ | cases h
  · rintro ⟨ha, rfl⟩
    rw [ha]
    exact ⟨rfl, rfl, rfl⟩

theorem busTarget_cap_iff {p : Params} {a : BitVec 32} {n : Size} :
    busTarget p a n = some .cap ↔ a.toNat = 0x00C ∧ n = .word := by
  rw [busTarget_eq_some]
  constructor
  · rintro ⟨ha, hg, hn⟩
    have hw : n = .word := by cases n <;> simp [Region.allows] at hn ⊢
    subst hw
    simp only [Size.bytes] at ha
    rcases regionAt_eq_some hg with ⟨h, -⟩ | ⟨h, -⟩ | ⟨h, -⟩ | ⟨-, h⟩ | ⟨h, -⟩ | ⟨h, -⟩ <;> first | exact ⟨by omega, rfl⟩ | cases h
  · rintro ⟨ha, rfl⟩
    rw [ha]
    exact ⟨rfl, rfl, rfl⟩

theorem busTarget_key_iff {p : Params} {a : BitVec 32} {n : Size} {j : Nat} :
    busTarget p a n = some (.key j) ↔
      a.toNat % n.bytes = 0 ∧ 0x010 ≤ a.toNat ∧ a.toNat < 0x020 ∧ j = a.toNat - 0x010 := by
  rw [busTarget_eq_some]
  constructor
  · rintro ⟨ha, hg, -⟩
    rcases regionAt_eq_some hg with ⟨h, -⟩ | ⟨h, -⟩ | ⟨h, -⟩ | ⟨h, -⟩ | ⟨h, hw⟩ | ⟨h, -⟩
    · cases h
    · cases h
    · cases h
    · cases h
    · injection h with h
      exact ⟨ha, hw.1, hw.2, h⟩
    · cases h
  · rintro ⟨ha, h1, h2, rfl⟩
    refine ⟨ha, regionAt_key h1 h2, ?_⟩
    simp only [Region.allows]

theorem busTarget_data_iff {p : Params} {a : BitVec 32} {n : Size} {b : Nat} :
    busTarget p a n = some (.data b) ↔
      a.toNat % n.bytes = 0 ∧ 0x1000 ≤ a.toNat ∧ a.toNat < 0x1000 + 4 * p.nmax ∧ b = a.toNat - 0x1000 := by
  rw [busTarget_eq_some]
  constructor
  · rintro ⟨ha, hg, -⟩
    rcases regionAt_eq_some hg with ⟨h, -⟩ | ⟨h, -⟩ | ⟨h, -⟩ | ⟨h, -⟩ | ⟨h, -⟩ | ⟨h, hw⟩
    · cases h
    · cases h
    · cases h
    · cases h
    · cases h
    · injection h with h
      exact ⟨ha, hw.1, hw.2, h⟩
  · rintro ⟨ha, h1, h2, hb⟩
    rw [hb]
    exact ⟨ha, regionAt_data h1 h2, rfl⟩

/-- An aligned access inside the DATA window ends inside it. -/
theorem data_access_end {p : Params} {a : Nat} {n : Size} (ha : a % n.bytes = 0) (h : a < 0x1000 + 4 * p.nmax) :
    a + n.bytes ≤ 0x1000 + 4 * p.nmax := by
  cases n <;> simp only [Size.bytes] at * <;> omega

/-- The mapped addresses fit the AW bits of the bus (R7, R50). -/
theorem busTarget_lt_pow {p : Params} {a : BitVec 32} {n : Size} (hp : p.wf = true) (h : busTarget p a n ≠ none) :
    a.toNat < 2 ^ p.aw := by
  obtain ⟨g, hg⟩ := Option.ne_none_iff_exists'.1 h
  have := regionAt_eq_some (busTarget_eq_some.1 hg).2.1
  simp only [Params.wf, Bool.and_eq_true, decide_eq_true_eq] at hp
  omega

/-! ### The bus -/

/-- A read changes at most the model's count of draws (R59). -/
theorem memRead_state (a : BitVec 32) (n : Size) (s : State) : ∃ d, (memRead a n s).2 = { s with draws := d } := by
  unfold memRead
  split
  any_goals exact ⟨s.draws, rfl⟩
  split
  · exact ⟨_, rfl⟩
  · exact ⟨s.draws, rfl⟩

/-- What a write can do: BusError, a command, a dropped write, or a store. -/
theorem memWrite_cases (a : BitVec 32) (n : Size) (v : Word) (s : State) :
    (busTarget s.params a n = none ∧ memWrite a n v s = .next (s.respond .busError)) ∨
    (busTarget s.params a n = some .ctrl ∧ a = 0 ∧ n = .word ∧
      memWrite a n v s = mapNext (State.respond .written) (command v s)) ∨
    (∃ g, busTarget s.params a n = some g ∧ g ≠ .ctrl ∧ s.busy = true ∧
      memWrite a n v s = .next (s.dropWrite.respond .written)) ∨
    (∃ g, busTarget s.params a n = some g ∧ g ≠ .ctrl ∧ s.busy = false ∧
      memWrite a n v s = .next ((storeRegion g n v s).respond .written)) := by
  rcases hg : busTarget s.params a n with _ | g
  · left; simp [memWrite, hg]
  · by_cases hc : g = .ctrl
    · subst hc
      right; left
      obtain ⟨ha, hn⟩ := busTarget_ctrl_iff.1 hg
      exact ⟨rfl, ha, hn, by simp [memWrite, hg]⟩
    · right; right
      rcases hb : s.busy with _ | _
      · right; refine ⟨g, rfl, hc, rfl, ?_⟩
        cases g <;> simp_all [memWrite]
      · left; refine ⟨g, rfl, hc, rfl, ?_⟩
        cases g <;> simp_all [memWrite]

/-! ### Steps -/

theorem State.issued_eq {s : State} {op : HostOp} (h : s.hostIssues op) :
    s.popTurn.host = op :: s.issued.host := by
  obtain ⟨-, h⟩ := h
  cases hh : s.host with
  | nil => simp [hh] at h
  | cons o r => simp [hh] at h; simp [State.issued, hh, h]

theorem step_of_host {s : State} {op : HostOp} (h : s.hostIssues op) : step s = hostOp op s.issued := by
  have e := State.issued_eq h
  simp only [step, h.1, takeTurn, hostTurn, e]
  rfl

theorem step_of_host_empty {s : State} (h : s.nextTurn = .host) (he : s.host = []) : step s = .next s.popTurn := by
  simp [step, h, takeTurn, hostTurn, he]

theorem step_of_engine {s : State} (h : s.nextTurn = .engine) : step s = engineTurn s.popTurn := by
  simp [step, h, takeTurn]

theorem step_of_powerOn {s : State} (h : s.nextTurn = .powerOn) : step s = .next s.popTurn.powerOn := by
  simp [step, h, takeTurn]

/-- The four kinds of step. -/
theorem step_cases (s : State) :
    (s.nextTurn = .powerOn ∧ step s = .next s.popTurn.powerOn) ∨
    (s.nextTurn = .engine ∧ step s = engineTurn s.popTurn) ∨
    (s.nextTurn = .host ∧ s.host = [] ∧ step s = .next s.popTurn) ∨
    (∃ op, s.hostIssues op ∧ step s = hostOp op s.issued) := by
  rcases h : s.nextTurn with _ | _ | _
  · right; right
    cases hh : s.host with
    | nil => exact .inl ⟨rfl, rfl, step_of_host_empty h hh⟩
    | cons op r =>
      have hi : s.hostIssues op := ⟨h, by simp [hh]⟩
      exact .inr ⟨op, hi, step_of_host hi⟩
  · exact .inr (.inl ⟨rfl, step_of_engine h⟩)
  · exact .inl ⟨rfl, step_of_powerOn h⟩

end Sys2Proof.Machine
end

