-- ==== Sys2Proof/Laws/Command.lean ====
section
/-! SUPPORT. What a decoded word can be, what a command word does in each phase, and what one operation of the host can do. -/

namespace Sys2Proof

theorem srstField_eq_one_iff (w : Word) : srstField w = 1 ↔ w.getLsbD 31 = true := by
  unfold srstField
  constructor
  · intro h
    have := congrArg (fun x => x.getLsbD 0) h
    simpa using this
  · intro h
    apply BitVec.eq_of_getLsbD_eq
    intro i hi
    have : i = 0 := by omega
    subst this
    simpa using h

theorem rsvdField_eq_zero_iff (w : Word) : rsvdField w = 0 ↔ w.toNat / 4 % 2 ^ 29 = 0 := by
  unfold rsvdField
  rw [← BitVec.toNat_inj]
  simp [BitVec.extractLsb'_toNat, Nat.shiftRight_eq_div_pow]

theorem opField_eq_iff (w : Word) (k : BitVec 2) : opField w = k ↔ w.toNat % 4 = k.toNat := by
  unfold opField
  rw [← BitVec.toNat_inj]
  simp [BitVec.extractLsb'_toNat]

theorem getLsbD_31_iff (w : Word) : w.getLsbD 31 = true ↔ 2 ^ 31 ≤ w.toNat := by
  rw [show w.getLsbD 31 = w.msb by simp [BitVec.msb_eq_getLsbD_last], BitVec.msb_eq_decide]
  simp

/-- The five classes of R81 by the word's value. -/
theorem decode_cases (w : Word) :
    (w.getLsbD 31 = true ∧ decode w = .command (.srst (w.extractLsb' 0 31))) ∨
    (w = 0 ∧ decode w = .command .nop) ∨
    (w = 1 ∧ decode w = .command .encrypt) ∨
    (w = 2 ∧ decode w = .command .decrypt) ∨
    (3 ≤ w.toNat ∧ w.toNat < 2 ^ 31 ∧ ∃ why, decode w = .illegal why) := by
  have hlt := w.isLt
  have hs := srstField_eq_one_iff w
  have hv := getLsbD_31_iff w
  have hr := rsvdField_eq_zero_iff w
  by_cases c : w.getLsbD 31 = true
  · exact .inl ⟨c, by simp [decode, hs.2 c]⟩
  · right
    have hw : w.toNat < 2 ^ 31 := Nat.lt_of_not_le fun h => c (hv.2 h)
    have c1 : ¬ srstField w = 1 := fun h => c (hs.1 h)
    by_cases h0 : w = 0
    · exact .inl ⟨h0, by subst h0; decide⟩
    by_cases h1 : w = 1
    · exact .inr (.inl ⟨h1, by subst h1; decide⟩)
    by_cases h2 : w = 2
    · exact .inr (.inr (.inl ⟨h2, by subst h2; decide⟩))
    have n0 : w.toNat ≠ 0 := fun h => h0 (BitVec.eq_of_toNat_eq h)
    have n1 : w.toNat ≠ 1 := fun h => h1 (BitVec.eq_of_toNat_eq h)
    have n2 : w.toNat ≠ 2 := fun h => h2 (BitVec.eq_of_toNat_eq h)
    refine .inr (.inr (.inr ⟨by omega, hw, ?_⟩))
    unfold decode
    rw [if_neg c1]
    by_cases hz : rsvdField w = 0
    · have := hr.1 hz
      have o : ∀ k : BitVec 2, k.toNat < 3 → ¬ opField w = k := by
        intro k hk h
        have := (opField_eq_iff w k).1 h
        omega
      rw [if_neg (by simp [hz]), if_neg (o 0 (by decide)), if_neg (o 1 (by decide)), if_neg (o 2 (by decide))]
      exact ⟨_, rfl⟩
    · rw [if_pos hz]
      exact ⟨_, rfl⟩

namespace Machine

/-- A CTRL word with bit 31 set is a soft reset in every phase (R140, R142). -/
theorem command_srst {w : Word} (s : State) (h : w.getLsbD 31 = true) : command w s = .next s.softReset := by
  rcases decode_cases w with ⟨-, e⟩ | ⟨e, -⟩ | ⟨e, -⟩ | ⟨e, -⟩ | ⟨-, e, -⟩
  · simp [command, e, exec, execSrst]
  · subst e; exact absurd h (by decide)
  · subst e; exact absurd h (by decide)
  · subst e; exact absurd h (by decide)
  · have := (getLsbD_31_iff w).1 h; omega

/-- What a CTRL word without bit 31 does is decided by the phase first (R140, R196, R175). -/
theorem command_other {w : Word} (s : State) (h : w.getLsbD 31 = false) :
    ∃ accept : State → State, command w s = .next (s.acceptInIdle accept) ∧
      ((w = 0 ∧ accept = id) ∨ (w = 1 ∧ accept = State.checkThen State.acceptEncrypt) ∨
        (w = 2 ∧ accept = State.checkThen State.acceptDecrypt) ∨
        (3 ≤ w.toNat ∧ w.toNat < 2 ^ 31 ∧ (∃ why, decode w = .illegal why) ∧ accept = State.raiseFault .illegalCmd)) := by
  rcases decode_cases w with ⟨e, -⟩ | ⟨e, d⟩ | ⟨e, d⟩ | ⟨e, d⟩ | ⟨e, e', why, d⟩
  · rw [h] at e; cases e
  · exact ⟨_, by simp only [command, d, exec, execNop], .inl ⟨e, rfl⟩⟩
  · exact ⟨_, by simp only [command, d, exec, execEncrypt], .inr (.inl ⟨e, rfl⟩)⟩
  · exact ⟨_, by simp only [command, d, exec, execDecrypt], .inr (.inr (.inl ⟨e, rfl⟩))⟩
  · exact ⟨_, by simp only [command, d, illegalCommand], .inr (.inr (.inr ⟨e, e', ⟨why, d⟩, rfl⟩))⟩

/-- What one operation of the host can do: a read or a poll changes the answer, the count of draws and perhaps puts the poll
back; everything else is a write. -/
theorem hostOp_cases (op : HostOp) (s : State) :
    (op.isSoftReset = false ∧ ∃ d ans h, (h = s.host ∨ h = op :: s.host) ∧
      hostOp op s = .next { s with draws := d, answer := some ans, host := h }) ∨
    (∃ a n v, op = .write a n v ∧ hostOp op s = memWrite a n v s) := by
  cases op with
  | read a n =>
    obtain ⟨d, hd⟩ := memRead_state a n s
    exact .inl ⟨rfl, d, (memRead a n s).1, s.host, .inl rfl, by simp only [hostOp, hd, State.respond]⟩
  | write a n v => exact .inr ⟨a, n, v, rfl, rfl⟩
  | poll off mask val =>
    obtain ⟨d, hd⟩ := memRead_state off .word s
    refine .inl ⟨rfl, d, (memRead off .word s).1, ?_⟩
    by_cases hc : (memRead off .word s).1.value &&& mask = val
    · exact ⟨s.host, .inl rfl, by simp only [hostOp, hd, if_pos hc, State.respond]⟩
    · exact ⟨_, .inr rfl, by simp only [hostOp, hd, if_neg hc, State.respond]⟩

theorem isSoftReset_write (a : BitVec 32) (n : Size) (v : Word) :
    (HostOp.write a n v).isSoftReset = true ↔ a = 0 ∧ n = .word ∧ v.getLsbD 31 = true := by
  have : v.msb = v.getLsbD 31 := by simp [BitVec.msb_eq_getLsbD_last]
  simp [HostOp.isSoftReset, ctrlAddr, this, and_assoc]

/-- While BUSY an operation of the host that is no soft reset changes WERR, the answer, the count of draws and the host's own
list, and nothing else (R196, R197). -/
theorem hostOp_busy {op : HostOp} {s : State} (hb : s.busy = true) (hr : op.isSoftReset = false) :
    ∃ e d ans h, (h = s.host ∨ h = op :: s.host) ∧ (e = s.werr ∨ e = true) ∧
      hostOp op s = .next { s with werr := e, draws := d, answer := some ans, host := h } := by
  rcases hostOp_cases op s with ⟨-, d, ans, h, hh, e⟩ | ⟨a, n, v, rfl, e⟩
  · exact ⟨s.werr, d, ans, h, hh, .inl rfl, e⟩
  · rw [e]
    rcases memWrite_cases a n v s with ⟨-, e⟩ | ⟨-, ha, hn, e⟩ | ⟨g, -, -, -, e⟩ | ⟨g, -, -, hf, -⟩
    · exact ⟨s.werr, s.draws, .busError, s.host, .inl rfl, .inl rfl, e⟩
    · have hv : v.getLsbD 31 = false := by
        by_contra hv
        rw [(isSoftReset_write a n v).2 ⟨ha, hn, by simpa using hv⟩] at hr
        cases hr
      obtain ⟨f, hf, -⟩ := command_other s hv
      rw [e, hf, State.acceptInIdle_busy f hb]
      exact ⟨true, s.draws, .written, s.host, .inl rfl, .inr rfl, rfl⟩
    · exact ⟨true, s.draws, .written, s.host, .inl rfl, .inr rfl, e⟩
    · rw [hb] at hf; cases hf

/-- A soft-reset operation resets in every phase. -/
theorem hostOp_softReset {op : HostOp} (s : State) (h : op.isSoftReset = true) :
    hostOp op s = .next (s.softReset.respond .written) := by
  cases op with
  | read a n => cases h
  | poll off mask val => cases h
  | write a n v =>
    obtain ⟨rfl, rfl, hv⟩ := (isSoftReset_write a n v).1 h
    have hc : busTarget s.params 0 .word = some .ctrl := busTarget_ctrl_iff.2 ⟨rfl, rfl⟩
    simp only [hostOp, memWrite, hc, command_srst s hv, mapNext]

end Machine

end Sys2Proof
end

