-- ==== Sys2Proof/Laws/Engine.lean ====
section
/-! SUPPORT. The engine's steps: what stays, what the words are afterwards, and how a step ends. -/

namespace Sys2Proof.Machine

variable (s : State)

@[simp] theorem State.endCycle_params : s.endCycle.params = s.params := by unfold State.endCycle; split <;> rfl
@[simp] theorem State.endCycle_len : s.endCycle.len = s.len := by unfold State.endCycle; split <;> rfl
@[simp] theorem State.endCycle_key : s.endCycle.key = s.key := by unfold State.endCycle; split <;> rfl
@[simp] theorem State.endCycle_mem : s.endCycle.mem = s.mem := by unfold State.endCycle; split <;> rfl
@[simp] theorem State.endCycle_fcode : s.endCycle.fcode = s.fcode := by unfold State.endCycle; split <;> rfl
@[simp] theorem State.endCycle_werr : s.endCycle.werr = s.werr := by unfold State.endCycle; split <;> rfl
@[simp] theorem State.endCycle_epoch : s.endCycle.epoch = s.epoch := by unfold State.endCycle; split <;> rfl
@[simp] theorem State.endCycle_host : s.endCycle.host = s.host := by unfold State.endCycle; split <;> rfl
@[simp] theorem State.endCycle_turns : s.endCycle.turns = s.turns := by unfold State.endCycle; split <;> rfl
@[simp] theorem State.endCycle_answer : s.endCycle.answer = s.answer := by unfold State.endCycle; split <;> rfl

@[simp] theorem State.encAdvance_params : s.encAdvance.params = s.params := by unfold State.encAdvance; split <;> simp
@[simp] theorem State.encAdvance_len : s.encAdvance.len = s.len := by unfold State.encAdvance; split <;> simp
@[simp] theorem State.encAdvance_key : s.encAdvance.key = s.key := by unfold State.encAdvance; split <;> simp
@[simp] theorem State.encAdvance_mem : s.encAdvance.mem = s.mem := by unfold State.encAdvance; split <;> simp
@[simp] theorem State.encAdvance_fcode : s.encAdvance.fcode = s.fcode := by unfold State.encAdvance; split <;> simp
@[simp] theorem State.encAdvance_werr : s.encAdvance.werr = s.werr := by unfold State.encAdvance; split <;> simp
@[simp] theorem State.encAdvance_epoch : s.encAdvance.epoch = s.epoch := by unfold State.encAdvance; split <;> simp
@[simp] theorem State.encAdvance_host : s.encAdvance.host = s.host := by unfold State.encAdvance; split <;> simp
@[simp] theorem State.encAdvance_turns : s.encAdvance.turns = s.turns := by unfold State.encAdvance; split <;> simp
@[simp] theorem State.encAdvance_answer : s.encAdvance.answer = s.answer := by unfold State.encAdvance; split <;> simp

@[simp] theorem State.decAdvance_params : s.decAdvance.params = s.params := by unfold State.decAdvance; split <;> simp
@[simp] theorem State.decAdvance_len : s.decAdvance.len = s.len := by unfold State.decAdvance; split <;> simp
@[simp] theorem State.decAdvance_key : s.decAdvance.key = s.key := by unfold State.decAdvance; split <;> simp
@[simp] theorem State.decAdvance_mem : s.decAdvance.mem = s.mem := by unfold State.decAdvance; split <;> simp
@[simp] theorem State.decAdvance_fcode : s.decAdvance.fcode = s.fcode := by unfold State.decAdvance; split <;> simp
@[simp] theorem State.decAdvance_werr : s.decAdvance.werr = s.werr := by unfold State.decAdvance; split <;> simp
@[simp] theorem State.decAdvance_epoch : s.decAdvance.epoch = s.epoch := by unfold State.decAdvance; split <;> simp
@[simp] theorem State.decAdvance_host : s.decAdvance.host = s.host := by unfold State.decAdvance; split <;> simp
@[simp] theorem State.decAdvance_turns : s.decAdvance.turns = s.turns := by unfold State.decAdvance; split <;> simp
@[simp] theorem State.decAdvance_answer : s.decAdvance.answer = s.answer := by unfold State.decAdvance; split <;> simp

@[simp] theorem State.encUpdate_params : s.encUpdate.params = s.params := rfl
@[simp] theorem State.encUpdate_len : s.encUpdate.len = s.len := rfl
@[simp] theorem State.encUpdate_key : s.encUpdate.key = s.key := rfl
@[simp] theorem State.encUpdate_phase : s.encUpdate.phase = s.phase := rfl
@[simp] theorem State.encUpdate_fcode : s.encUpdate.fcode = s.fcode := rfl
@[simp] theorem State.encUpdate_done : s.encUpdate.done = s.done := rfl
@[simp] theorem State.encUpdate_werr : s.encUpdate.werr = s.werr := rfl
@[simp] theorem State.encUpdate_epoch : s.encUpdate.epoch = s.epoch := rfl
@[simp] theorem State.encUpdate_draws : s.encUpdate.draws = s.draws := rfl
@[simp] theorem State.encUpdate_host : s.encUpdate.host = s.host := rfl
@[simp] theorem State.encUpdate_turns : s.encUpdate.turns = s.turns := rfl
@[simp] theorem State.encUpdate_answer : s.encUpdate.answer = s.answer := rfl

@[simp] theorem State.decUpdate_params : s.decUpdate.params = s.params := rfl
@[simp] theorem State.decUpdate_len : s.decUpdate.len = s.len := rfl
@[simp] theorem State.decUpdate_key : s.decUpdate.key = s.key := rfl
@[simp] theorem State.decUpdate_phase : s.decUpdate.phase = s.phase := rfl
@[simp] theorem State.decUpdate_fcode : s.decUpdate.fcode = s.fcode := rfl
@[simp] theorem State.decUpdate_done : s.decUpdate.done = s.done := rfl
@[simp] theorem State.decUpdate_werr : s.decUpdate.werr = s.werr := rfl
@[simp] theorem State.decUpdate_epoch : s.decUpdate.epoch = s.epoch := rfl
@[simp] theorem State.decUpdate_draws : s.decUpdate.draws = s.draws := rfl
@[simp] theorem State.decUpdate_host : s.decUpdate.host = s.host := rfl
@[simp] theorem State.decUpdate_turns : s.decUpdate.turns = s.turns := rfl
@[simp] theorem State.decUpdate_answer : s.decUpdate.answer = s.answer := rfl

theorem State.encUpdate_blockWord (j : Nat) :
    s.encUpdate.blockWord j = if j = s.seq.r.toNat then s.encValue else s.blockWord j := by
  rw [← State.blockWord_setBlockWord s s.seq.r.toNat j s.encValue]; rfl

theorem State.decUpdate_blockWord (j : Nat) :
    s.decUpdate.blockWord j = if j = s.seq.r.toNat then s.decValue else s.blockWord j := by
  rw [← State.blockWord_setBlockWord s s.seq.r.toNat j s.decValue]; rfl

theorem State.encUpdate_blockByte (a : Nat) :
    s.encUpdate.blockByte a =
      if wordAddr s.seq.r.toNat ≤ a ∧ a < wordAddr s.seq.r.toNat + 4 then byteLane s.encValue (a - wordAddr s.seq.r.toNat)
      else s.blockByte a := by
  rw [← State.blockByte_setBlockWord s s.seq.r.toNat s.encValue a]; rfl

theorem State.decUpdate_blockByte (a : Nat) :
    s.decUpdate.blockByte a =
      if wordAddr s.seq.r.toNat ≤ a ∧ a < wordAddr s.seq.r.toNat + 4 then byteLane s.decValue (a - wordAddr s.seq.r.toNat)
      else s.blockByte a := by
  rw [← State.blockByte_setBlockWord s s.seq.r.toNat s.decValue a]; rfl

theorem State.encAdvance_blockByte : s.encAdvance.blockByte = s.blockByte :=
  State.blockByte_congr (by simp) (by simp)

theorem State.decAdvance_blockByte : s.decAdvance.blockByte = s.blockByte :=
  State.blockByte_congr (by simp) (by simp)

theorem State.encAdvance_blockWord : s.encAdvance.blockWord = s.blockWord :=
  State.blockWord_congr (by simp) (by simp)

theorem State.decAdvance_blockWord : s.decAdvance.blockWord = s.blockWord :=
  State.blockWord_congr (by simp) (by simp)

theorem State.indexInBlock_iff :
    s.indexInBlock = true ↔ s.seq.r.toNat < s.seq.n.toNat ∧ s.seq.n.toNat ≤ s.params.nmax := by
  simp [State.indexInBlock]

variable {s}

/-- The end of a cycle either goes on with the next one or completes the command (R151, R152, R153). -/
theorem State.endCycle_cases :
    (s.seq.cyc + 1 = s.seq.rounds ∧ s.endCycle =
      { s with phase := .idle, done := true, seq := Sequencer.unspecified s.draws, draws := s.draws + 1 }) ∨
    (s.seq.cyc + 1 ≠ s.seq.rounds ∧ s.endCycle = { s with seq := { s.seq with cyc := s.seq.cyc + 1 } }) := by
  unfold State.endCycle
  by_cases h : s.seq.cyc + 1 = s.seq.rounds
  · exact .inl ⟨h, by rw [if_pos h]; rfl⟩
  · exact .inr ⟨h, by rw [if_neg h]⟩

/-- How EncStep's index part ends: inside a cycle, at the end of a cycle, or at the end of the command. -/
theorem State.encAdvance_cases :
    (s.seq.r ≠ s.seq.n - 1 ∧ s.encAdvance = { s with seq := { s.seq with r := s.seq.r + 1 } }) ∨
    (s.seq.r = s.seq.n - 1 ∧ s.seq.cyc + 1 ≠ s.seq.rounds ∧
      s.encAdvance = { s with seq := { s.seq with r := 0, cyc := s.seq.cyc + 1 } }) ∨
    (s.seq.r = s.seq.n - 1 ∧ s.seq.cyc + 1 = s.seq.rounds ∧ s.encAdvance =
      { s with phase := .idle, done := true, seq := Sequencer.unspecified s.draws, draws := s.draws + 1 }) := by
  unfold State.encAdvance
  by_cases h : s.seq.r = s.seq.n - 1
  · rw [if_pos h]
    rcases State.endCycle_cases (s := { s with seq := { s.seq with r := 0 } }) with ⟨hc, e⟩ | ⟨hc, e⟩
    · exact .inr (.inr ⟨h, hc, e⟩)
    · exact .inr (.inl ⟨h, hc, e⟩)
  · exact .inl ⟨h, if_neg h⟩

/-- How DecStep's index part ends. -/
theorem State.decAdvance_cases :
    (s.seq.r ≠ 0 ∧ s.decAdvance = { s with seq := { s.seq with r := s.seq.r - 1 } }) ∨
    (s.seq.r = 0 ∧ s.seq.cyc + 1 ≠ s.seq.rounds ∧ s.decAdvance =
      { s with seq := { s.seq with sum := s.seq.sum - delta, r := s.seq.n - 1, cyc := s.seq.cyc + 1 } }) ∨
    (s.seq.r = 0 ∧ s.seq.cyc + 1 = s.seq.rounds ∧ s.decAdvance =
      { s with phase := .idle, done := true, seq := Sequencer.unspecified s.draws, draws := s.draws + 1 }) := by
  unfold State.decAdvance
  by_cases h : s.seq.r = 0
  · rw [if_pos h]
    rcases State.endCycle_cases (s := { s with seq := { s.seq with sum := s.seq.sum - delta, r := s.seq.n - 1 } }) with
      ⟨hc, e⟩ | ⟨hc, e⟩
    · exact .inr (.inr ⟨h, hc, e⟩)
    · exact .inr (.inl ⟨h, hc, e⟩)
  · exact .inl ⟨h, if_neg h⟩

/-- R is the last index exactly when R + 1 = N. -/
theorem last_index_iff {r n : Word} (h : r.toNat < n.toNat) : r = n - 1 ↔ r.toNat + 1 = n.toNat := by
  have hn := n.isLt
  rw [← BitVec.toNat_inj, BitVec.toNat_sub]
  rw [show (1 : Word).toNat = 1 from rfl]
  omega

end Sys2Proof.Machine
end

