-- ==== Sys2Proof/Laws/PerInstr.lean ====
section
/-! SUPPORT. A fact about every command as syntax: its word lies in its row of the opcode table (spec 30_encoding.md R83). -/

namespace Sys2Proof.Laws.EncodesInItsRow

/-- The command's word, under the mask of its row, is the row's match value. -/
def Statement (i : Instr) : Prop := encode i &&& rowMask i = rowMatch i

theorem nop : Statement .nop := by unfold Statement; decide

theorem encrypt : Statement .encrypt := by unfold Statement; decide

theorem decrypt : Statement .decrypt := by unfold Statement; decide

theorem srst (ignored : BitVec 31) : Statement (.srst ignored) := by
  unfold Statement encode rowMask rowMatch
  apply BitVec.eq_of_getLsbD_eq
  intro i hi
  simp only [BitVec.getLsbD_and]
  rw [BitVec.getLsbD_append]
  by_cases h : i < 31
  · have : (0x80000000#32).getLsbD i = false := by interval_cases i <;> decide
    simp [this]
  · have : i = 31 := by omega
    subst this
    rw [if_neg (by decide)]
    decide

end Sys2Proof.Laws.EncodesInItsRow
end

