-- ==== Sys2Proof/Laws/Run.lean ====
section
/-! SUPPORT. Runs of several steps, and the parts of the invariant that no event touches. -/

namespace Sys2Proof.Machine

theorem core_run_zero (s : State) : Host.Core.run core 0 s = .next s := rfl

theorem run_succ (M : Host.Core) (k : Nat) (s : M.State) :
    M.run (k + 1) s =
      match M.step s with
      | .next t => M.run k t
      | .fault r => .fault r
      | .refused r => .refused r := rfl

theorem core_run_succ {s t : State} (k : Nat) (h : step s = .next t) :
    Host.Core.run core (k + 1) s = Host.Core.run core k t := by
  have h' : core.step s = .next t := h
  refine (run_succ core k s).trans ?_
  rw [h']

theorem core_run_fault {s : State} {r : Fault} (k : Nat) (h : step s = .fault r) :
    Host.Core.run core (k + 1) s = .fault r := by
  have h' : core.step s = .fault r := h
  refine (run_succ core k s).trans ?_
  rw [h']

theorem core_run_refused {s : State} {r : Refusal} (k : Nat) (h : step s = .refused r) :
    Host.Core.run core (k + 1) s = .refused r := by
  have h' : core.step s = .refused r := h
  refine (run_succ core k s).trans ?_
  rw [h']

/-- Runs can be put one after the other. -/
theorem core_run_add {s t : State} (j k : Nat) (h : Host.Core.run core j s = .next t) :
    Host.Core.run core (j + k) s = Host.Core.run core k t := by
  induction j generalizing s with
  | zero => rw [core_run_zero] at h; cases h; rw [Nat.zero_add]
  | succ j ih =>
    rw [Nat.succ_add]
    rcases hs : step s with u | r | r
    · rw [core_run_succ j hs] at h
      rw [core_run_succ (j + k) hs]
      exact ih h
    · rw [core_run_fault j hs] at h; cases h
    · rw [core_run_refused j hs] at h; cases h

theorem rounds_ge (n : Nat) : 6 ≤ rounds n := Nat.le_add_right _ _

theorem rounds_le (n : Nat) : rounds n ≤ 58 := by
  have := Nat.div_le_self 52 n
  unfold rounds
  omega

theorem rounds_toNat (n : Nat) : (BitVec.ofNat 32 (rounds n)).toNat = rounds n := by
  have := rounds_le n
  rw [BitVec.toNat_ofNat, Nat.mod_eq_of_lt (by omega)]

/-- A length that passes its check gives 1 ≤ N ≤ NMAX (R143). -/
theorem wordCount_bounds {p : Params} {len : Word} (h : checkLen p len = .none) :
    0 < (wordCount len).toNat ∧ (wordCount len).toNat ≤ p.nmax := by
  obtain ⟨h1, h2, h3⟩ := checkLen_ok_iff.1 h
  rw [wordCount_toNat]
  have : len.toNat ≠ 0 := fun x => h1 (BitVec.eq_of_toNat_eq x)
  omega

/-- The invariant says nothing of WERR, the count of draws and the host's side of the bus. -/
theorem State.Inv.outside {s : State} (hi : s.Inv) (w : Bool) (d : Nat) (h : List HostOp) (ts : List Turn)
    (a : Option Answer) : State.Inv { s with werr := w, draws := d, host := h, turns := ts, answer := a } := by
  cases hi
  constructor <;> assumption

/-- In IDLE the invariant is the one of the parameters and the buffer. -/
theorem State.Inv.of_idle {t : State} (hp : t.params.wf = true) (hm : Memory.wf t.mem = true)
    (hw : Memory.inWindow t.params t.mem = true) (h : t.phase = .idle) (hf : t.fcode = .none) : t.Inv := by
  have hb : t.busy = false := (State.not_busy_iff t).2 (.inl h)
  constructor <;> simp_all

/-- While BUSY the engine's index lies in the block (R63). -/
theorem State.Inv.indexInBlock {s : State} (hi : s.Inv) (hb : s.busy = true) : s.indexInBlock = true := by
  rw [State.indexInBlock_iff]
  refine ⟨hi.busy_r hb, ?_⟩
  rw [hi.busy_n hb]
  exact (wordCount_bounds (hi.busy_len hb)).2

end Sys2Proof.Machine
end

