-- ==== Sys2Proof/Tests/Slice0.lean ====
section
/-! SUPPORT. Tests against the spec's own words, vectors and cases (spec 95_test_vectors.md), the smoke test of well-formedness,
and a witness for the hypotheses of every statement. -/

open Sys2Proof
open Sys2Proof.Machine

namespace Sys2Proof.Tests

/-! ### Helpers -/

/-- The next state, where there is one. -/
def after : Host.Outcome State Fault Refusal → Option State
  | .next s => some s
  | .fault _ => none
  | .refused _ => none

/-- The state in which the host issues `op` next. -/
def issuing (op : HostOp) (s : State) : State := { s with host := [op], turns := [.host] }

/-- The bytes of V[0] and V[1] as a buffer. -/
def buffer (v0 v1 : Word) : List Host.Cell := Memory.store 0x1004 v1 4 (Memory.store 0x1000 v0 4 [])

/-- IDLE, LEN = len, K = 0, V[0] = v0, V[1] = v1, in the reference configuration. -/
def idle (len v0 v1 : Word) : State := { State.reset with len := len, mem := buffer v0 v1 }

/-- ENC after the acceptance of V1's plaintext. -/
def enc8 : State := (idle 8 0 0).acceptEncrypt

/-- DEC after the acceptance of V1's ciphertext. -/
def dec8 : State := (idle 8 0x053704ab 0x575d8c80).acceptDecrypt

/-- FAULTED after ENCRYPT with LEN = 6. -/
def faulted6 : State := (idle 6 0 0).raiseFault .lenUnaligned

/-- ENC, the last engine step of a one-word command to come. -/
def enc4Last : State :=
  { (idle 4 0 0).acceptEncrypt with
    seq := { (idle 4 0 0).acceptEncrypt.seq with sum := BitVec.ofNat 32 57 * delta, cyc := 57 }, werr := true }

/-- DEC, the last engine step of a one-word command to come. -/
def dec4Last : State :=
  { (idle 4 0 0).acceptDecrypt with seq := { (idle 4 0 0).acceptDecrypt.seq with sum := delta, cyc := 57 } }

/-! ### Well-formedness refuses an ill-formed term for each check -/

theorem test_wf_reference : Params.reference.wf = true := by decide
theorem test_wf_nmax_zero : ({ Params.reference with nmax := 0 } : Params).wf = false := by decide
theorem test_wf_nmax_large : ({ Params.reference with nmax := 2 ^ 28 + 1, aw := 32 } : Params).wf = false := by decide
theorem test_wf_aw_small : ({ Params.reference with aw := 12 } : Params).wf = false := by decide
theorem test_wf_aw_large : ({ Params.reference with aw := 33 } : Params).wf = false := by decide
theorem test_wf_stepCycles_zero : ({ Params.reference with stepCycles := 0 } : Params).wf = false := by decide
theorem test_wf_read_address : (HostOp.read 0x2000 .word).wf Params.reference = false := by decide
theorem test_wf_write_address : (HostOp.write 0x2000 .word 0).wf Params.reference = false := by decide
theorem test_wf_write_value : (HostOp.write 0x1000 .byte 0x100).wf Params.reference = false := by decide
theorem test_wf_poll_address : (HostOp.poll 0x2000 0 0).wf Params.reference = false := by decide
theorem test_wf_write_ok : (HostOp.write 0x1FFE .half 0xFFFF).wf Params.reference = true := by decide

/-! ### Decoding: words written out from the fields of 30_encoding.md R80 (SRST 31, RSVD 30:2, OP 1:0) -/

theorem test_decode_nop : decode 0b00000000000000000000000000000000 = .command .nop := by decide
theorem test_decode_encrypt : decode 0b00000000000000000000000000000001 = .command .encrypt := by decide
theorem test_decode_decrypt : decode 0b00000000000000000000000000000010 = .command .decrypt := by decide
theorem test_decode_srst : decode 0b10000000000000000000000000000000 = .command (.srst 0) := by decide
theorem test_decode_srst_ignores : decode 0b11000000000000000000000000000101 = .command (.srst 0x40000005) := by decide
theorem test_decode_op3 : decode 0b00000000000000000000000000000011 = .illegal .reservedOp := by decide
theorem test_decode_bit2 : decode 0b00000000000000000000000000000101 = .illegal .reservedBits := by decide
theorem test_decode_bit30 : decode 0b01000000000000000000000000000000 = .illegal .reservedBits := by decide
theorem test_encode_words :
    encode .nop = 0 ∧ encode .encrypt = 1 ∧ encode .decrypt = 2 ∧ encode (.srst 3) = 0x80000003 := by decide
theorem test_decodeTableWord :
    decodeTableWord 32 1 = some .encrypt ∧ decodeTableWord 32 0x80000000 = some (.srst 0) ∧ decodeTableWord 32 3 = none := by
  decide

/-! ### The transform: 95_test_vectors.md 1, 2.1, 2.3 -/

/-- V1. -/
theorem test_vector1 :
    encryptBlock (Vector.replicate 4 0) (pack [0, 0, 0, 0, 0, 0, 0, 0]) =
      pack [0xab, 0x04, 0x37, 0x05, 0x80, 0x8c, 0x5d, 0x57] := by decide +kernel

/-- V2: key bytes 0102040810204080fffefcf8f0e0c080, plaintext fffefcf8f0e0c080, ciphertext 8c3707c01c7fccc4. -/
theorem test_vector2 :
    encryptBlock #v[0x08040201, 0x80402010, 0xf8fcfeff, 0x80c0e0f0] (pack [0xff, 0xfe, 0xfc, 0xf8, 0xf0, 0xe0, 0xc0, 0x80]) =
      pack [0x8c, 0x37, 0x07, 0xc0, 0x1c, 0x7f, 0xcc, 0xc4] := by decide +kernel

/-- V3, decrypting c0a19f06ebb0d63925aa27f74cc6b2d0. -/
theorem test_vector3 :
    decryptBlock (Vector.replicate 4 0xaaaaaaaa) [0x069fa1c0, 0x39d6b0eb, 0xf727aa25, 0xd0b2c64c] =
      [0x08040201, 0x80402010, 0xf8fcfeff, 0x80c0e0f0] := by decide +kernel

/-- V4's derived ciphertext, N = 7. -/
theorem test_vector4 :
    encryptBlock #v[0xb979379e, 0xe973979b, 0x9e3779b9, 0x5651696b]
        [0x43da5535, 0x8a869d4c, 0x3ee73114, 0xc02f3773, 0xce098e68, 0x6f0bd011, 0x64a736d9] =
      [0x7dae638e, 0x6695118a, 0x56b70e99, 0x94bf6af1, 0x983587ff, 0xfb12ca03, 0xfbfd03aa] := by decide +kernel

/-- T-N1b. -/
theorem test_single_word :
    encryptBlock #v[0x01234567, 0x89abcdef, 0xfedcba98, 0x76543210] [0xffffffff] = [0x243f38d7] ∧
    decryptBlock #v[0x01234567, 0x89abcdef, 0xfedcba98, 0x76543210] [0x243f38d7] = [0xdfe5bb1e] := by decide +kernel

/-- 2.1, rows 3 and 5. -/
theorem test_mx :
    mx 0x3c6ef372 0x12345678 0x9abcdef0 2 = 0x3c87a71a ∧ mx 0xdaa66d2b 0x80000000 0x00000001 0x22222222 = 0x6cc88f5e := by decide

/-- R104's worked example, and 2.1 rows 3, 4, 5. -/
theorem test_keyIndex :
    keyIndex 0 0x9e3779b9 = 2 ∧ keyIndex 1 0x9e3779b9 = 3 ∧ keyIndex 2 0x9e3779b9 = 0 ∧ keyIndex 3 0x9e3779b9 = 1 ∧
    keyIndex 1 0x3c6ef372 = 1 ∧ keyIndex 6 0x3c6ef372 = 2 ∧ keyIndex 3 0xdaa66d2b = 1 := by decide

/-- 2.2, rounds and start sums at N = 2, 7, 53. -/
theorem test_startSum :
    rounds 7 = 13 ∧ rounds 53 = 6 ∧ startSum 2 = 0xc6ef3720 ∧ startSum 7 = 0x08d12e65 ∧ startSum 53 = 0xb54cda56 := by decide

/-! ### Commands: 95_test_vectors.md 2.5 -/

/-- CMD-11. -/
theorem test_nop_idle :
    (after (step (issuing hostNop { idle 8 0 0 with done := true }))).map (fun t => (t.status, t.answer)) =
      some (0x00000002, some .written) := by decide

/-- CMD-1: LEN_ZERO, as the first instruction after reset. -/
theorem test_encrypt_lenZero :
    (after (step (State.reset.withFetchWord 32 1))).map (fun t => (t.status, t.phase)) = some (0x00000024, .faulted) := by decide

/-- CMD-5: LEN = 4·NMAX is accepted, N = 1024, ROUNDS = 6. -/
theorem test_encrypt_accept :
    (after (step (issuing hostEncrypt (idle 0x1000 0 0)))).map (fun t => (t.status, t.seq.n, t.seq.rounds)) =
      some (0x00000001, 1024, 6) := by decide

/-- CMD-3: LEN_RANGE; LEN stays. -/
theorem test_decrypt_lenRange :
    (after (step (issuing hostDecrypt (idle 0x1004 0 0)))).map (fun t => (t.status, t.len)) =
      some (0x00000044, 0x1004) := by decide

/-- 2.4, decrypt's start: SUM, Y, R, CYC. -/
theorem test_decrypt_accept :
    (dec8.seq.sum, dec8.seq.y, dec8.seq.r, dec8.seq.cyc) = (0xc6ef3720, 0x053704ab, 1, 0) := by decide

/-- CMD-10: SRST with other bits set, in FAULTED; LEN = 0, V unchanged. -/
theorem test_srst_faulted :
    (after (step (issuing (wr32 0x000 0x80000003) faulted6))).map (fun t => (t.status, t.len, t.phase)) =
      some (0, 0, .idle) := by decide

/-- CMD-13: SRST while BUSY. -/
theorem test_srst_busy :
    (after (step (issuing hostSrst enc8))).map (fun t => (t.status, t.phase)) = some (0, .idle) := by decide

/-- CMD-4: LEN = 0xFFFFFFFF reports LEN_UNALIGNED. -/
theorem test_encrypt_lenUnaligned :
    (after (step (issuing hostEncrypt (idle 0xFFFFFFFF 0 0)))).map (fun t => t.status) = some 0x00000034 := by decide

/-- CMD-8: an ILLEGAL word with LEN = 0. -/
theorem test_illegal_idle :
    (after (step (issuing (wr32 0x000 7) (idle 0 0 0)))).map (fun t => t.status) = some 0x00000054 := by decide

/-- CMD-12: DECRYPT while BUSY. -/
theorem test_decrypt_busy :
    (after (step (issuing hostDecrypt enc8))).map (fun t => (t.status, t.phase)) = some (0x00000009, .enc) := by decide

/-- CMD-9: ENCRYPT while FAULTED. -/
theorem test_encrypt_faulted :
    (after (step (issuing hostEncrypt faulted6))).map (fun t => t.status) = some 0x00000034 := by decide

/-! ### Engine steps: 95_test_vectors.md 2.4 -/

/-- Encrypt, step 1. -/
theorem test_encStep :
    (after (step enc8)).map (fun t => (t.seq.sum, t.seq.r, t.seq.cyc, t.blockWord 0, t.blockWord 1, t.seq.z)) =
      some (0x9e3779b9, 1, 0, 0x9e3779b9, 0, 0x9e3779b9) := by decide

/-- Decrypt, step 1. -/
theorem test_decStep :
    (after (step dec8)).map (fun t => (t.seq.sum, t.seq.r, t.seq.cyc, t.blockWord 0, t.blockWord 1, t.seq.y)) =
      some (0xc6ef3720, 0, 0, 0x053704ab, 0xb59a1fe8, 0xb59a1fe8) := by decide

/-- CMD-15: completion keeps WERR. -/
theorem test_completion : (after (step enc4Last)).map (fun t => (t.status, t.phase)) = some (0x0000000A, .idle) := by decide

/-! ### The bus: 95_test_vectors.md 2.6 -/

/-- BUS-1, BUS-2, BUS-3. -/
theorem test_read_data :
    (after (step (issuing (rd32 0x1000) (idle 8 0x053704ab 0)))).map (·.answer) = some (some (.data 0x053704ab)) ∧
    (after (step (issuing (rd16 0x1002) (idle 8 0x053704ab 0)))).map (·.answer) = some (some (.data 0x0537)) ∧
    (after (step (issuing (rd8 0x1003) (idle 8 0x053704ab 0)))).map (·.answer) = some (some (.data 0x05)) := by decide

/-- BUS-4, BUS-5, BUS-6, BUS-7. -/
theorem test_bus_errors :
    (after (step (issuing (rd16 0x1001) (idle 8 0 0)))).map (·.answer) = some (some .busError) ∧
    (after (step (issuing (rd8 0x004) (idle 8 0 0)))).map (·.answer) = some (some .busError) ∧
    (after (step (issuing (rd32 0x020) (idle 8 0 0)))).map (·.answer) = some (some .busError) ∧
    (after (step (issuing (rd32 0x2000) (idle 8 0 0)))).map (·.answer) = some (some .busError) := by decide

/-- BUS-8, BUS-9. -/
theorem test_read_registers :
    (after (step (issuing (rd32 0x000) (idle 8 0 0)))).map (·.answer) = some (some (.data 0)) ∧
    (after (step (issuing (rd32 0x00C) (idle 8 0 0)))).map (·.answer) = some (some (.data 0x400)) := by decide

/-- BUS-12. -/
theorem test_write_key_byte :
    (after (step (issuing (wr8 0x013 0xab) (idle 8 0 0)))).map (fun t => t.key) = some #v[0xab000000, 0, 0, 0] := by decide

/-- BUS-13. -/
theorem test_write_data_half :
    (after (step (issuing (wr16 0x1006 0x1234) (idle 8 0 0)))).map (fun t => t.blockWord 1) = some 0x12340000 := by decide

/-- BUS-15. -/
theorem test_write_busy :
    (after (step (issuing (wr32 0x010 1) enc8))).map (fun t => (t.werr, t.key)) = some (true, #v[0, 0, 0, 0]) := by decide

/-- BUS-14: a busy DATA read changes no state; its value is not asked for. -/
theorem test_read_busy :
    (after (step (issuing (rd32 0x1000) enc8))).map (fun t => (t.status, t.mem, t.seq)) =
      some (enc8.status, enc8.mem, enc8.seq) := rfl

/-- WAIT stays while BUSY (30_encoding.md R85). -/
theorem test_wait_busy : (after (step (issuing hostWait enc8))).map (fun t => t.host) = some [hostWait] := by decide

/-- A power-on turn while FAULTED (60_exceptions.md R176). -/
theorem test_powerOn :
    (after (step { faulted6 with turns := [.powerOn] })).map (fun t => (t.status, t.len, t.phase)) = some (0, 0, .idle) := by decide

/-! ### Witnesses: the hypotheses of each statement are met together -/

theorem inv_idle : (idle 8 0 0).Inv := by constructor <;> decide
theorem inv_enc8 : enc8.Inv := by constructor <;> decide
theorem inv_dec8 : dec8.Inv := by constructor <;> decide

/-- A word of the ENCRYPT row and a word of the SRST row. -/
theorem witness_OpcodeRowsSelectTheirCommands :
    (1 : Word) &&& rowMask .encrypt = rowMatch .encrypt ∧ (0x80000003 : Word) &&& rowMask (.srst 0) = rowMatch (.srst 0) := by decide

theorem witness_ResetsLeaveTheValuesOfTheTable : ({ enc8 with turns := [.powerOn] } : State).nextTurn = .powerOn := by decide

theorem witness_EveryStepKeepsTheInvariant :
    (enc8.Inv ∧ ∃ t, step enc8 = .next t) ∧ (dec8.Inv ∧ ∃ t, step dec8 = .next t) :=
  ⟨⟨inv_enc8, _, rfl⟩, inv_dec8, _, rfl⟩

theorem witness_RunsFromTheInvariantAreSafe : enc8.Inv := inv_enc8

theorem witness_NopChangesNothing : (idle 8 0 0).phase = .idle ∧ enc8.busy = true ∧ faulted6.phase = .faulted := by decide

theorem witness_SrstIsAcceptedInEveryPhase :
    (0xFFFFFFFF : Word).getLsbD 31 = true ∧ (issuing (.write 0 .word 0xFFFFFFFF) enc8).hostIssues (.write 0 .word 0xFFFFFFFF) := by decide

theorem witness_EncryptIsAccepted :
    ((idle 4 0 0).phase = .idle ∧ (idle 4 0 0).len ≠ 0 ∧ (idle 4 0 0).len.toNat % 4 = 0 ∧
      (idle 4 0 0).len.toNat ≤ 4 * (idle 4 0 0).params.nmax) ∧
    ((idle 0x1000 0 0).phase = .idle ∧ (idle 0x1000 0 0).len ≠ 0 ∧ (idle 0x1000 0 0).len.toNat % 4 = 0 ∧
      (idle 0x1000 0 0).len.toNat = 4 * (idle 0x1000 0 0).params.nmax) := by decide

theorem witness_DecryptIsAccepted :
    ((idle 4 0 0).phase = .idle ∧ (idle 4 0 0).len ≠ 0 ∧ (idle 4 0 0).len.toNat % 4 = 0 ∧
      (idle 4 0 0).len.toNat ≤ 4 * (idle 4 0 0).params.nmax) ∧
    ((idle 0x1000 0 0).phase = .idle ∧ (idle 0x1000 0 0).len ≠ 0 ∧ (idle 0x1000 0 0).len.toNat % 4 = 0 ∧
      (idle 0x1000 0 0).len.toNat = 4 * (idle 0x1000 0 0).params.nmax) := by decide

/-- One LEN for each clause, at its boundary: 0, 1 and 0xFFFFFFFF, 0x1004, 0x1000. -/
theorem witness_LengthChecksFaultInOrder :
    (idle 0 0 0).phase = .idle ∧ (idle 0 0 0).len = 0 ∧
    ((idle 1 0 0).len ≠ 0 ∧ (idle 1 0 0).len.toNat % 4 ≠ 0) ∧
    ((idle 0xFFFFFFFF 0 0).len ≠ 0 ∧ (idle 0xFFFFFFFF 0 0).len.toNat % 4 ≠ 0) ∧
    ((idle 0x1004 0 0).len ≠ 0 ∧ (idle 0x1004 0 0).len.toNat % 4 = 0 ∧ 4 * (idle 0x1004 0 0).params.nmax < (idle 0x1004 0 0).len.toNat) ∧
    ((idle 0x1000 0 0).len ≠ 0 ∧ (idle 0x1000 0 0).len.toNat % 4 = 0 ∧ (idle 0x1000 0 0).len.toNat ≤ 4 * (idle 0x1000 0 0).params.nmax) := by
  decide

theorem witness_CommandsAreDroppedOutsideIdle : enc8.busy = true ∧ dec8.busy = true ∧ faulted6.phase = .faulted := by decide

/-- The first and the last ILLEGAL word, in each phase. -/
theorem witness_IllegalWordsByPhase :
    ((3 : Word).getLsbD 31 = false ∧ (3 : Word).extractLsb' 0 2 = 3 ∧ (0x7FFFFFFF : Word).getLsbD 31 = false ∧
      (0x7FFFFFFF : Word).extractLsb' 2 29 ≠ 0) ∧
    ((issuing (.write 0 .word 3) (idle 8 0 0)).hostIssues (.write 0 .word 3) ∧ (issuing (.write 0 .word 3) (idle 8 0 0)).phase = .idle) ∧
    ((issuing (.write 0 .word 3) enc8).hostIssues (.write 0 .word 3) ∧ (issuing (.write 0 .word 3) enc8).busy = true) ∧
    ((issuing (.write 0 .word 0x7FFFFFFF) faulted6).hostIssues (.write 0 .word 0x7FFFFFFF) ∧
      (issuing (.write 0 .word 0x7FFFFFFF) faulted6).phase = .faulted) := by decide

/-- One transaction for each clause: unmapped, busy, SRST, FAULTED, ILLEGAL, a failing length check. -/
theorem witness_OutcomesInPriorityOrder :
    ((issuing (.read 0x020 .word) enc8).hostIssues (.read 0x020 .word) ∧ busTarget enc8.params 0x020 .word = none) ∧
    ((issuing (.write 0x020 .word 0) enc8).hostIssues (.write 0x020 .word 0) ∧ busTarget enc8.params 0x020 .word = none) ∧
    ((issuing (.write 0x008 .word 4) enc8).hostIssues (.write 0x008 .word 4) ∧ busTarget enc8.params 0x008 .word ≠ none ∧
      enc8.busy = true ∧ ¬ ((0x008 : BitVec 32) = 0 ∧ (4 : Word).getLsbD 31 = true)) ∧
    ((issuing (.write 0 .word 0x80000000) enc8).hostIssues (.write 0 .word 0x80000000) ∧
      busTarget enc8.params 0 .word = some .ctrl ∧ (0x80000000 : Word).getLsbD 31 = true) ∧
    ((issuing (.write 0 .word 1) faulted6).hostIssues (.write 0 .word 1) ∧ faulted6.phase = .faulted ∧
      (1 : Word).getLsbD 31 = false) ∧
    ((issuing (.write 0 .word 3) (idle 0 0 0)).hostIssues (.write 0 .word 3) ∧ (idle 0 0 0).phase = .idle ∧
      3 ≤ (3 : Word).toNat ∧ (3 : Word).toNat < 2 ^ 31) ∧
    ((issuing (.write 0 .word 1) (idle 0 0 0)).hostIssues (.write 0 .word 1) ∧ (idle 0 0 0).len = 0) ∧
    ((issuing (.write 0 .word 2) (idle 0xFFFFFFFF 0 0)).hostIssues (.write 0 .word 2) ∧ (idle 0xFFFFFFFF 0 0).len ≠ 0 ∧
      (idle 0xFFFFFFFF 0 0).len.toNat % 4 ≠ 0) ∧
    ((issuing (.write 0 .word 2) (idle 0x1004 0 0)).hostIssues (.write 0 .word 2) ∧ (idle 0x1004 0 0).phase = .idle ∧
      (idle 0x1004 0 0).len ≠ 0 ∧ (idle 0x1004 0 0).len.toNat % 4 = 0 ∧
      4 * (idle 0x1004 0 0).params.nmax < (idle 0x1004 0 0).len.toNat) := by decide

theorem witness_StepRunsTheWrittenCommand :
    (issuing (.write 0 .word 1) (idle 8 0 0)).hostIssues (.write 0 .word 1) ∧ decode 1 = .command .encrypt := by decide

theorem witness_EngineTurnsByPhase :
    (enc8.nextTurn = .engine ∧ enc8.phase = .enc) ∧ (dec8.nextTurn = .engine ∧ dec8.phase = .dec) ∧
    (({ idle 8 0 0 with turns := [.engine] } : State).nextTurn = .engine ∧ (idle 8 0 0).phase = .idle) ∧
    (({ faulted6 with turns := [.engine] } : State).nextTurn = .engine ∧ faulted6.phase = .faulted) := by decide

/-- A step inside a cycle, one that ends a cycle, and one that ends the command. -/
theorem witness_EncStepUpdatesOneWord :
    (enc8.nextTurn = .engine ∧ enc8.phase = .enc ∧ enc8.seq.r.toNat + 1 < enc8.seq.n.toNat ∧ enc8.seq.n.toNat ≤ enc8.params.nmax) ∧
    (({ enc8 with seq := { enc8.seq with r := 1 } } : State).seq.r.toNat + 1 = enc8.seq.n.toNat ∧ enc8.seq.cyc + 1 ≠ enc8.seq.rounds) ∧
    (enc4Last.nextTurn = .engine ∧ enc4Last.phase = .enc ∧ enc4Last.seq.r.toNat + 1 = enc4Last.seq.n.toNat ∧
      enc4Last.seq.n.toNat ≤ enc4Last.params.nmax ∧ enc4Last.seq.cyc + 1 = enc4Last.seq.rounds) := by decide

theorem witness_DecStepUpdatesOneWord :
    (dec8.nextTurn = .engine ∧ dec8.phase = .dec ∧ dec8.seq.r.toNat < dec8.seq.n.toNat ∧ dec8.seq.n.toNat ≤ dec8.params.nmax ∧
      dec8.seq.r ≠ 0) ∧
    (({ dec8 with seq := { dec8.seq with r := 0 } } : State).seq.r = 0 ∧ dec8.seq.cyc + 1 ≠ dec8.seq.rounds) ∧
    (dec4Last.nextTurn = .engine ∧ dec4Last.phase = .dec ∧ dec4Last.seq.r.toNat < dec4Last.seq.n.toNat ∧
      dec4Last.seq.n.toNat ≤ dec4Last.params.nmax ∧ dec4Last.seq.r = 0 ∧ dec4Last.seq.cyc + 1 = dec4Last.seq.rounds) := by decide

/-- A host that reads and writes while the engine runs; N = 1, so 58 engine steps. -/
def raced : State :=
  { idle 4 0 0 with host := [rd32 0x1000, wr32 0x1000 1], turns := (.host :: .host :: List.replicate 57 .engine) ++ [.engine] }

theorem inv_raced : raced.Inv := by constructor <;> decide

theorem witness_EncryptCommandComputesEncrypt :
    raced.Inv ∧ raced.phase = .idle ∧ raced.len ≠ 0 ∧ raced.len.toNat % 4 = 0 ∧ raced.len.toNat ≤ 4 * raced.params.nmax ∧
    (∀ op ∈ raced.host, op.isSoftReset = false) ∧ (∃ t, exec .encrypt raced = .next t) ∧
    raced.turns = (.host :: .host :: List.replicate 57 .engine) ++ .engine :: [] ∧
    .powerOn ∉ (.host :: .host :: List.replicate 57 .engine : List Turn) ∧
    (.host :: .host :: List.replicate 57 .engine : List Turn).count .engine + 1 = rounds (raced.len.toNat / 4) * (raced.len.toNat / 4) :=
  ⟨inv_raced, by decide, by decide, by decide, by decide, by decide, ⟨_, rfl⟩, rfl, by decide, by decide⟩

theorem witness_DecryptCommandComputesDecrypt :
    raced.Inv ∧ raced.phase = .idle ∧ raced.len ≠ 0 ∧ raced.len.toNat % 4 = 0 ∧ raced.len.toNat ≤ 4 * raced.params.nmax ∧
    (∀ op ∈ raced.host, op.isSoftReset = false) ∧ (∃ t, exec .decrypt raced = .next t) ∧
    raced.turns = (.host :: .host :: List.replicate 57 .engine) ++ .engine :: [] ∧
    .powerOn ∉ (.host :: .host :: List.replicate 57 .engine : List Turn) ∧
    (.host :: .host :: List.replicate 57 .engine : List Turn).count .engine + 1 = rounds (raced.len.toNat / 4) * (raced.len.toNat / 4) :=
  ⟨inv_raced, by decide, by decide, by decide, by decide, by decide, ⟨_, rfl⟩, rfl, by decide, by decide⟩

theorem witness_EveryRunLeavesBusy : enc8.Inv ∧ enc8.busy = true := ⟨inv_enc8, by decide⟩

theorem witness_DecryptUndoesEncrypt : 2 ≤ ([0, 0] : List Word).length := by decide

theorem witness_EncryptUndoesDecrypt : 2 ≤ ([0, 0] : List Word).length := by decide

/-- N = 1, 53 and a larger N, the ends of the table. -/
theorem witness_RoundsFollowTheTable : 1 ≤ 1 ∧ rounds 1 = 58 ∧ rounds 52 = 7 ∧ rounds 53 = 6 ∧ rounds 1024 = 6 := by decide

theorem witness_PackingIsLittleEndian : ([1, 2, 3, 4] : List Byte).length % 4 = 0 ∧ 7 < 4 * ([0, 0] : List Word).length := by decide

/-- A misaligned transaction, the first unmapped address above DATA, and the last mapped byte. -/
theorem witness_IllegalTransactionsGetBusError :
    busTarget enc8.params 0x1001 .half = none ∧ (issuing (.read 0x1001 .half) enc8).hostIssues (.read 0x1001 .half) ∧
    busTarget enc8.params 0x2000 .byte = none ∧ (issuing (.write 0x2000 .byte 0) enc8).hostIssues (.write 0x2000 .byte 0) ∧
    busTarget enc8.params 0x1FFF .byte ≠ none ∧ (issuing (.write 0x1FFF .byte 0) enc8).hostIssues (.write 0x1FFF .byte 0) ∧
    (issuing (.read 0x1FFF .byte) enc8).hostIssues (.read 0x1FFF .byte) := by decide

theorem witness_RegisterReads :
    (issuing (.read 0x000 .word) enc8).hostIssues (.read 0x000 .word) ∧
    (issuing (.read 0x004 .word) enc8).hostIssues (.read 0x004 .word) ∧
    (issuing (.read 0x008 .word) enc8).hostIssues (.read 0x008 .word) ∧
    (issuing (.read 0x00C .word) enc8).hostIssues (.read 0x00C .word) := by decide

theorem witness_StatusFields : enc8.Inv ∧ enc8.status.getLsbD 2 = false := ⟨inv_enc8, by decide⟩

/-- The first and the last bytes of the window. -/
theorem witness_KeyWindowReads :
    (issuing (.read 0x010 .word) enc8).hostIssues (.read 0x010 .word) ∧ 0x010 % Size.word.bytes = 0 ∧
    (issuing (.read 0x01F .byte) (idle 8 0 0)).hostIssues (.read 0x01F .byte) ∧ 0x01F % Size.byte.bytes = 0 := by decide

/-- The first and the last bytes of the window of the reference configuration. -/
theorem witness_DataWindowReads :
    (idle 8 0 0).busy = false ∧ (issuing (.read 0x1000 .word) (idle 8 0 0)).hostIssues (.read 0x1000 .word) ∧
    0x1000 % Size.word.bytes = 0 ∧ 0x1FFE < 0x1000 + 4 * (idle 8 0 0).params.nmax ∧ 0x1FFE % Size.half.bytes = 0 ∧
    (issuing (.read 0x1FFE .half) (idle 8 0 0)).hostIssues (.read 0x1FFE .half) := by decide

theorem witness_BusyDataReadsChangeNothing :
    enc8.busy = true ∧ (issuing (.read 0x1FFF .byte) enc8).hostIssues (.read 0x1FFF .byte) ∧
    0x1FFF < 0x1000 + 4 * enc8.params.nmax ∧ 0x1FFF % Size.byte.bytes = 0 := by decide

theorem witness_ReadsHaveNoSideEffects : (issuing (.read 0x004 .word) enc8).hostIssues (.read 0x004 .word) := by decide

theorem witness_LenStoresEveryValue :
    (idle 8 0 0).busy = false ∧ (issuing (.write 0x008 .word 0xFFFFFFFF) (idle 8 0 0)).hostIssues (.write 0x008 .word 0xFFFFFFFF) := by
  decide

theorem witness_KeyWritesReplaceTheirBytes :
    faulted6.busy = false ∧ (issuing (.write 0x010 .word 1) faulted6).hostIssues (.write 0x010 .word 1) ∧
    (issuing (.write 0x01E .half 1) (idle 8 0 0)).hostIssues (.write 0x01E .half 1) ∧ 0x01E % Size.half.bytes = 0 := by decide

theorem witness_DataWritesReplaceTheirBytes :
    faulted6.busy = false ∧ (issuing (.write 0x1000 .word 1) faulted6).hostIssues (.write 0x1000 .word 1) ∧
    (issuing (.write 0x1FFF .byte 1) (idle 8 0 0)).hostIssues (.write 0x1FFF .byte 1) ∧
    0x1FFF < 0x1000 + 4 * (idle 8 0 0).params.nmax := by decide

theorem witness_ReadOnlyRegistersIgnoreWrites :
    ((issuing (.write 0x004 .word 1) (idle 8 0 0)).hostIssues (.write 0x004 .word 1) ∧ (idle 8 0 0).busy = false) ∧
    ((issuing (.write 0x00C .word 1) enc8).hostIssues (.write 0x00C .word 1) ∧ enc8.busy = true) ∧
    (issuing (.read 0x000 .word) (idle 8 0 0)).hostIssues (.read 0x000 .word) := by decide

theorem witness_BusyWritesAreDropped :
    (enc8.busy = true ∧ busTarget enc8.params 0 .word ≠ none ∧ (issuing (.write 0 .word 0x7FFFFFFF) enc8).hostIssues (.write 0 .word 0x7FFFFFFF) ∧
      ¬ ((0 : BitVec 32) = 0 ∧ (0x7FFFFFFF : Word).getLsbD 31 = true)) ∧
    (enc4Last.werr = true ∧ (after (step enc4Last)).isSome = true) := by decide

theorem witness_RegisterWritesAreIdempotent :
    (idle 8 0 0).Inv ∧ (0x1002 : BitVec 32) ≠ 0 ∧ ∃ t, memWrite 0x1002 .half 0x1234 (idle 8 0 0) = .next t :=
  ⟨inv_idle, by decide, _, rfl⟩

theorem witness_WaitEndsWhenNotBusy :
    ((issuing hostWait (idle 8 0 0)).hostIssues hostWait ∧ (issuing hostWait (idle 8 0 0)).busy = false) ∧
    ((issuing hostWait enc8).hostIssues hostWait ∧ (issuing hostWait enc8).busy = true) := by decide

theorem witness_FaultsAreSticky :
    faulted6.phase = .faulted ∧ (after (step (issuing hostEncrypt faulted6))).isSome = true ∧
    (after (step (issuing hostSrst faulted6))).isSome = true ∧
    ({ faulted6 with turns := [.engine] } : State).nextTurn = .engine := by decide

theorem witness_FaultsComeFromCommandWrites :
    (after (step (issuing (wr32 0 3) (idle 8 0 0)))).map (·.phase) = some .faulted ∧
    (after (step (issuing hostEncrypt (idle 6 0 0)))).map (·.phase) = some .faulted ∧ (idle 8 0 0).phase ≠ .faulted := by decide

/-- Completion sets DONE; an acceptance and SRST clear it. -/
theorem witness_DoneChangesOnlyAsStated :
    ((after (step enc4Last)).map (·.done) = some true ∧ enc4Last.done = false) ∧
    (after (step (issuing hostEncrypt { idle 8 0 0 with done := true }))).map (·.done) = some false ∧
    (after (step (issuing hostSrst { idle 8 0 0 with done := true }))).map (·.done) = some false := by decide

theorem witness_OperandsAreFixedWhileBusy :
    enc8.busy = true ∧ (after (step enc8)).isSome = true ∧ (after (step (issuing (wr32 0x010 1) enc8))).isSome = true := by decide

theorem witness_CapIsConstant : (after (step (issuing (wr32 0x00C 5) (idle 8 0 0)))).isSome = true := by decide

/-- An engine step and a host write each change a byte. -/
theorem witness_BlockBufferChangesOnlyAsStated :
    enc8.Inv ∧ (after (step enc8)).map (fun t => t.blockByte 0x1000) = some 0xb9 ∧ enc8.blockByte 0x1000 = 0 ∧
    (after (step (issuing (wr8 0x1007 5) (idle 8 0 0)))).map (fun t => t.blockByte 0x1007) = some 5 ∧
    (idle 8 0 0).blockByte 0x1007 = 0 :=
  ⟨inv_enc8, by decide, by decide, by decide, by decide⟩

theorem witness_IdleSequencerIsNeverObserved : (idle 8 0 0).Inv ∧ (idle 8 0 0).busy = false := ⟨inv_idle, by decide⟩

theorem witness_PowerOnKeepsTheHostSide :
    ({ enc8 with host := [hostWait], turns := [.powerOn, .engine], answer := some .written } : State).nextTurn = .powerOn := by decide

end Sys2Proof.Tests
end

namespace Sys2Proof.Machine

/-! # What a step can do

One inversion for a host operation, one for an engine turn, and one for a step; every claim about all steps is a case split
over them. -/

section Issued
variable (s : State)

@[simp] theorem State.issued_params : s.issued.params = s.params := rfl
@[simp] theorem State.issued_len : s.issued.len = s.len := rfl
@[simp] theorem State.issued_key : s.issued.key = s.key := rfl
@[simp] theorem State.issued_mem : s.issued.mem = s.mem := rfl
@[simp] theorem State.issued_phase : s.issued.phase = s.phase := rfl
@[simp] theorem State.issued_fcode : s.issued.fcode = s.fcode := rfl
@[simp] theorem State.issued_done : s.issued.done = s.done := rfl
@[simp] theorem State.issued_werr : s.issued.werr = s.werr := rfl
@[simp] theorem State.issued_seq : s.issued.seq = s.seq := rfl
@[simp] theorem State.issued_epoch : s.issued.epoch = s.epoch := rfl
@[simp] theorem State.issued_draws : s.issued.draws = s.draws := rfl
@[simp] theorem State.issued_host : s.issued.host = s.host.tail := rfl
@[simp] theorem State.issued_turns : s.issued.turns = s.turns.tail := rfl
@[simp] theorem State.issued_answer : s.issued.answer = s.answer := rfl
@[simp] theorem State.issued_busy : s.issued.busy = s.busy := rfl
@[simp] theorem State.popTurn_busy : s.popTurn.busy = s.busy := rfl
@[simp] theorem State.respond_busy (a : Answer) : (s.respond a).busy = s.busy := rfl
@[simp] theorem State.complete_busy : s.complete.busy = false := rfl
@[simp] theorem State.softReset_busy : s.softReset.busy = false := rfl
@[simp] theorem State.raiseFault_busy (c : FaultCode) : (s.raiseFault c).busy = false := rfl
@[simp] theorem State.acceptEncrypt_busy : s.acceptEncrypt.busy = true := rfl
@[simp] theorem State.acceptDecrypt_busy : s.acceptDecrypt.busy = true := rfl

end Issued

theorem State.busy_of_idle {s : State} (h : s.phase = .idle) : s.busy = false := (State.not_busy_iff s).2 (.inl h)

/-! ### One operation of the host -/

theorem State.checkThen_cases (accept : State → State) (s : State) :
    (checkLen s.params s.len = .none ∧ s.checkThen accept = accept s) ∨
    (checkLen s.params s.len ≠ .none ∧ s.checkThen accept = s.raiseFault (checkLen s.params s.len)) := by
  by_cases h : checkLen s.params s.len = .none
  · exact .inl ⟨h, if_pos h⟩
  · exact .inr ⟨h, if_neg h⟩

/-- The states that the host operation `op` can leave when the block stands in `s`. -/
inductive HostEffect (op : HostOp) (s : State) : State → Prop
  /-- A read, a poll, a BusError, a NOP or a dropped write: at most WERR, and only while BUSY (R59, R196, R60, R175). -/
  | quiet (w : Bool) (d : Nat) (h : List HostOp) (a : Answer) (notReset : op.isSoftReset = false)
      (werr : w = s.werr ∨ (s.busy = true ∧ w = true)) (list : h = s.host ∨ h = op :: s.host) :
      HostEffect op s { s with werr := w, draws := d, host := h, answer := some a }
  /-- R142. -/
  | softReset (reset : op.isSoftReset = true) : HostEffect op s (s.softReset.respond .written)
  /-- R144. -/
  | acceptEncrypt (write : op = .write 0 .word 1) (idle : s.phase = .idle) (len : checkLen s.params s.len = .none) :
      HostEffect op s (s.acceptEncrypt.respond .written)
  /-- R145. -/
  | acceptDecrypt (write : op = .write 0 .word 2) (idle : s.phase = .idle) (len : checkLen s.params s.len = .none) :
      HostEffect op s (s.acceptDecrypt.respond .written)
  /-- R84, R143. -/
  | fault (w : Word) (code : FaultCode) (write : op = .write 0 .word w) (idle : s.phase = .idle)
      (cause : ((∃ why, decode w = .illegal why) ∧ code = .illegalCmd) ∨
        ((w = 1 ∨ w = 2) ∧ code = checkLen s.params s.len ∧ code ≠ .none)) :
      HostEffect op s ((s.raiseFault code).respond .written)
  /-- R56. -/
  | store (a : BitVec 32) (n : Size) (v : Word) (g : Region) (write : op = .write a n v)
      (target : busTarget s.params a n = some g) (notCtrl : g ≠ .ctrl) (notBusy : s.busy = false) :
      HostEffect op s ((storeRegion g n v s).respond .written)

/-- A command that only answers is a quiet effect. -/
theorem HostEffect.respond_self {op : HostOp} (s : State) (a : Answer) (h : op.isSoftReset = false) :
    HostEffect op s (s.respond a) :=
  .quiet s.werr s.draws s.host a h (.inl rfl) (.inl rfl)

theorem HostEffect.dropWrite {op : HostOp} {s : State} (hb : s.busy = true) (h : op.isSoftReset = false) :
    HostEffect op s (s.dropWrite.respond .written) :=
  .quiet true s.draws s.host .written h (.inr ⟨hb, rfl⟩) (.inl rfl)

theorem isSoftReset_write_false {w : Word} (h : w.getLsbD 31 = false) :
    (HostOp.write 0 .word w).isSoftReset = false := by
  rw [Bool.eq_false_iff, Ne, isSoftReset_write, h]
  simp

/-- A CTRL write of a word: R140 with its four classes of words, R175 and R196. -/
theorem command_effect (w : Word) (s : State) :
    ∃ t, command w s = .next t ∧ HostEffect (.write 0 .word w) s (t.respond .written) := by
  rcases hw : w.getLsbD 31 with _ | _
  case true => exact ⟨_, command_srst s hw, .softReset ((isSoftReset_write 0 .word w).2 ⟨rfl, rfl, hw⟩)⟩
  case false =>
    have hr := isSoftReset_write_false hw
    obtain ⟨accept, e, hword⟩ := command_other s hw
    refine ⟨_, e, ?_⟩
    rcases hb : s.busy with _ | _
    case true => rw [State.acceptInIdle_busy accept hb]; exact .dropWrite hb hr
    case false =>
      rcases (State.not_busy_iff s).1 hb with hp | hp
      case inr => rw [State.acceptInIdle_faulted accept hp]; exact .respond_self s _ hr
      case inl =>
        rw [State.acceptInIdle_idle accept hp]
        rcases hword with ⟨-, rfl⟩ | ⟨rfl, rfl⟩ | ⟨rfl, rfl⟩ | ⟨-, -, hill, rfl⟩
        · exact .respond_self s _ hr
        · rcases State.checkThen_cases State.acceptEncrypt s with ⟨hl, e⟩ | ⟨hl, e⟩ <;> rw [e]
          · exact .acceptEncrypt rfl hp hl
          · exact .fault 1 _ rfl hp (.inr ⟨.inl rfl, rfl, hl⟩)
        · rcases State.checkThen_cases State.acceptDecrypt s with ⟨hl, e⟩ | ⟨hl, e⟩ <;> rw [e]
          · exact .acceptDecrypt rfl hp hl
          · exact .fault 2 _ rfl hp (.inr ⟨.inr rfl, rfl, hl⟩)
        · exact .fault w _ rfl hp (.inl ⟨hill, rfl⟩)

/-- A write that does not reach CTRL is no soft reset. -/
theorem isSoftReset_write_of_target (p : Params) {a : BitVec 32} {n : Size} (v : Word)
    (h : busTarget p a n ≠ some .ctrl) : (HostOp.write a n v).isSoftReset = false := by
  rw [Bool.eq_false_iff, Ne, isSoftReset_write]
  rintro ⟨ha, hn, -⟩
  exact h (busTarget_ctrl_iff.2 ⟨ha, hn⟩)

/-- Every host operation has a next state, and it is one of `HostEffect`. -/
theorem hostOp_effect (op : HostOp) (s : State) : ∃ t, hostOp op s = .next t ∧ HostEffect op s t := by
  rcases hostOp_cases op s with ⟨hr, d, ans, h, hh, e⟩ | ⟨a, n, v, rfl, e⟩
  · exact ⟨_, e, .quiet s.werr d h ans hr (.inl rfl) hh⟩
  · rw [e]
    rcases memWrite_cases a n v s with ⟨hg, e⟩ | ⟨-, rfl, rfl, e⟩ | ⟨g, hg, hc, hb, e⟩ | ⟨g, hg, hc, hb, e⟩ <;>
      rw [e]
    · exact ⟨_, rfl, .respond_self s _ (isSoftReset_write_of_target s.params v (by simp [hg]))⟩
    · obtain ⟨t, e, ht⟩ := command_effect v s
      exact ⟨_, by rw [e]; rfl, ht⟩
    · exact ⟨_, rfl, .dropWrite hb (isSoftReset_write_of_target s.params v (by simpa [hg] using hc))⟩
    · exact ⟨_, rfl, .store a n v g rfl hg hc hb⟩

/-! ### Reads of the register map -/

theorem memRead_ctrl {a : BitVec 32} {n : Size} {s : State} (h : busTarget s.params a n = some .ctrl) :
    memRead a n s = (.data 0, s) := by simp only [memRead, h]

theorem memRead_status {a : BitVec 32} {n : Size} {s : State} (h : busTarget s.params a n = some .status) :
    memRead a n s = (.data s.status, s) := by simp only [memRead, h]

theorem memRead_len {a : BitVec 32} {n : Size} {s : State} (h : busTarget s.params a n = some .len) :
    memRead a n s = (.data s.len, s) := by simp only [memRead, h]

theorem memRead_cap {a : BitVec 32} {n : Size} {s : State} (h : busTarget s.params a n = some .cap) :
    memRead a n s = (.data s.cap, s) := by simp only [memRead, h]

theorem memRead_key {a : BitVec 32} {n : Size} {s : State} {j : Nat} (h : busTarget s.params a n = some (.key j)) :
    memRead a n s = (.data (gather (keyByte s.key) j n.bytes), s) := by simp only [memRead, h]

/-! ### One engine turn -/

/-- The index part of EncStep goes on with the same operands, or completes (R151). -/
theorem State.encAdvance_frame (s : State) :
    (∃ q : Sequencer, s.encAdvance = { s with seq := q } ∧ q.n = s.seq.n ∧ q.rounds = s.seq.rounds) ∨
      s.encAdvance = s.complete := by
  rcases State.encAdvance_cases (s := s) with ⟨-, e⟩ | ⟨-, -, e⟩ | ⟨-, -, e⟩
  · exact .inl ⟨_, e, rfl, rfl⟩
  · exact .inl ⟨_, e, rfl, rfl⟩
  · exact .inr e

/-- The index part of DecStep goes on with the same operands, or completes (R152). -/
theorem State.decAdvance_frame (s : State) :
    (∃ q : Sequencer, s.decAdvance = { s with seq := q } ∧ q.n = s.seq.n ∧ q.rounds = s.seq.rounds) ∨
      s.decAdvance = s.complete := by
  rcases State.decAdvance_cases (s := s) with ⟨-, e⟩ | ⟨-, -, e⟩ | ⟨-, -, e⟩
  · exact .inl ⟨_, e, rfl, rfl⟩
  · exact .inl ⟨_, e, rfl, rfl⟩
  · exact .inr e

theorem encStep_next {s t : State} (h : encStep s = .next t) :
    s.indexInBlock = true ∧ t = s.encUpdate.encAdvance := by
  unfold encStep at h
  split at h
  case isTrue hi => injection h with h; exact ⟨hi, h.symm⟩
  case isFalse => cases h

theorem decStep_next {s t : State} (h : decStep s = .next t) :
    s.indexInBlock = true ∧ t = s.decUpdate.decAdvance := by
  unfold decStep at h
  split at h
  case isTrue hi => injection h with h; exact ⟨hi, h.symm⟩
  case isFalse => cases h

theorem engineTurn_enc {s : State} (h : s.phase = .enc) : engineTurn s = encStep s := by simp [engineTurn, h]

theorem engineTurn_dec {s : State} (h : s.phase = .dec) : engineTurn s = decStep s := by simp [engineTurn, h]

theorem engineTurn_notBusy {s : State} (h : s.busy = false) : engineTurn s = .next s := by
  rcases (State.not_busy_iff s).1 h with h | h <;> simp [engineTurn, h]

/-- An engine step writes the one word V[R], R < N, and then goes on with the same operands or completes (R151, R152, R153). -/
theorem engineTurn_frame {s t : State} (hb : s.busy = true) (h : engineTurn s = .next t) :
    s.seq.r.toNat < s.seq.n.toNat ∧ ∃ x,
      (∃ q : Sequencer, t = { s.setBlockWord s.seq.r.toNat x with seq := q } ∧ q.n = s.seq.n ∧ q.rounds = s.seq.rounds) ∨
      t = (s.setBlockWord s.seq.r.toNat x).complete := by
  rcases (State.busy_iff s).1 hb with hp | hp
  · obtain ⟨hi, rfl⟩ := encStep_next ((engineTurn_enc hp).symm.trans h)
    refine ⟨((State.indexInBlock_iff s).1 hi).1, s.encValue, ?_⟩
    rcases s.encUpdate.encAdvance_frame with ⟨q, e, hn, hr⟩ | e
    · exact .inl ⟨q, e, hn, hr⟩
    · exact .inr e
  · obtain ⟨hi, rfl⟩ := decStep_next ((engineTurn_dec hp).symm.trans h)
    refine ⟨((State.indexInBlock_iff s).1 hi).1, s.decValue, ?_⟩
    rcases s.decUpdate.decAdvance_frame with ⟨q, e, hn, hr⟩ | e
    · exact .inl ⟨q, e, hn, hr⟩
    · exact .inr e

/-! ### One step -/

/-- The states that one step from `s` can leave. -/
inductive StepEffect (s : State) : State → Prop
  | powerOn (turn : s.nextTurn = .powerOn) : StepEffect s s.popTurn.powerOn
  /-- The turn of an agent that has nothing to do (log 7). -/
  | pass : StepEffect s s.popTurn
  | engine {t : State} (turn : s.nextTurn = .engine) (busy : s.busy = true) (eq : engineTurn s.popTurn = .next t) :
      StepEffect s t
  | host {t : State} (op : HostOp) (issues : s.hostIssues op) (effect : HostEffect op s.issued t) : StepEffect s t

theorem step_effect {s t : State} (h : step s = .next t) : StepEffect s t := by
  rcases step_cases s with ⟨ht, e⟩ | ⟨ht, e⟩ | ⟨-, -, e⟩ | ⟨op, hi, e⟩ <;> rw [e] at h
  · cases h; exact .powerOn ht
  · rcases hb : s.busy with _ | _
    · rw [engineTurn_notBusy (s := s.popTurn) hb] at h; cases h; exact .pass
    · exact .engine ht hb h
  · cases h; exact .pass
  · obtain ⟨u, e, hu⟩ := hostOp_effect op s.issued
    rw [e] at h; cases h
    exact .host op hi hu

theorem State.resetsNext_of_issues {s : State} {op : HostOp} (hi : s.hostIssues op) (hr : op.isSoftReset = true) :
    s.resetsNext := .inr ⟨op, hi, hr⟩

theorem step_of_read {s : State} {a : BitVec 32} {n : Size} (h : s.hostIssues (.read a n)) :
    step s = .next ((memRead a n s.issued).2.respond (memRead a n s.issued).1) := step_of_host h

/-- A read that answers `v` and changes nothing (R55). -/
theorem step_of_quiet_read {s : State} {a : BitVec 32} {n : Size} {v : Word} (h : s.hostIssues (.read a n))
    (hr : memRead a n s.issued = (.data v, s.issued)) : step s = .next { s.issued with answer := some (.data v) } := by
  rw [step_of_read h, hr]; rfl

/-! # Every step keeps the invariant -/

/-! ### The invariant by phase -/

/-- Outside a command the invariant is the one of the parameters, the buffer and FCODE. -/
theorem State.Inv.of_notBusy {t : State} (hp : t.params.wf = true) (hm : Memory.wf t.mem = true)
    (hw : Memory.inWindow t.params t.mem = true) (hk : t.fcode ≠ .keyLen) (hf : t.fcode = .none ↔ t.phase ≠ .faulted)
    (hb : t.busy = false) : t.Inv := by
  have henc : t.phase ≠ .enc := fun h => by rw [(State.busy_iff t).2 (.inl h)] at hb; cases hb
  have hdec : t.phase ≠ .dec := fun h => by rw [(State.busy_iff t).2 (.inr h)] at hb; cases hb
  constructor <;> simp_all

/-- The part of the invariant that ENC and DEC share: the operands, and where the engine stands. -/
structure State.Running (s : State) : Prop where
  params_wf : s.params.wf = true
  mem_wf : Memory.wf s.mem = true
  mem_inWindow : Memory.inWindow s.params s.mem = true
  fcode : s.fcode = .none
  done : s.done = false
  len : checkLen s.params s.len = .none
  n : s.seq.n = wordCount s.len
  rounds : s.seq.rounds = BitVec.ofNat 32 (rounds s.seq.n.toNat)
  r : s.seq.r.toNat < s.seq.n.toNat
  cyc : s.seq.cyc.toNat < s.seq.rounds.toNat

theorem State.Inv.fcode_of_not_faulted {s : State} (hi : s.Inv) (h : s.phase ≠ .faulted) : s.fcode = .none :=
  hi.fcode_none_iff.2 h

theorem State.Inv.running {s : State} (hi : s.Inv) (hb : s.busy = true) : s.Running where
  params_wf := hi.params_wf
  mem_wf := hi.mem_wf
  mem_inWindow := hi.mem_inWindow
  fcode := hi.fcode_of_not_faulted fun h => by rw [(State.not_busy_iff s).2 (.inr h)] at hb; cases hb
  done := hi.busy_done hb
  len := hi.busy_len hb
  n := hi.busy_n hb
  rounds := hi.busy_rounds hb
  r := hi.busy_r hb
  cyc := hi.busy_cyc hb

/-- A running command meets the invariant with the sum and the neighbour of its direction (R110, R111, R116, R117). -/
theorem State.Running.inv {s : State} (h : s.Running) (hp : s.phase ≠ .faulted)
    (henc : s.phase = .enc → s.seq.sum = (if s.seq.r = 0 then s.seq.cyc else s.seq.cyc + 1) * delta ∧
      s.seq.z = s.blockWord ((s.seq.r.toNat + s.seq.n.toNat - 1) % s.seq.n.toNat))
    (hdec : s.phase = .dec → s.seq.sum = (s.seq.rounds - s.seq.cyc) * delta ∧
      s.seq.y = s.blockWord ((s.seq.r.toNat + 1) % s.seq.n.toNat)) : s.Inv where
  params_wf := h.params_wf
  mem_wf := h.mem_wf
  mem_inWindow := h.mem_inWindow
  fcode_not_keyLen := by simp [h.fcode]
  fcode_none_iff := by simp [h.fcode, hp]
  busy_done := fun _ => h.done
  busy_len := fun _ => h.len
  busy_n := fun _ => h.n
  busy_rounds := fun _ => h.rounds
  busy_r := fun _ => h.r
  busy_cyc := fun _ => h.cyc
  enc_sum := fun he => (henc he).1
  enc_z := fun he => (henc he).2
  dec_sum := fun hd => (hdec hd).1
  dec_y := fun hd => (hdec hd).2

theorem State.Running.inv_of_enc {s : State} (h : s.Running) (hp : s.phase = .enc)
    (hsum : s.seq.sum = (if s.seq.r = 0 then s.seq.cyc else s.seq.cyc + 1) * delta)
    (hz : s.seq.z = s.blockWord ((s.seq.r.toNat + s.seq.n.toNat - 1) % s.seq.n.toNat)) : s.Inv :=
  h.inv (by simp [hp]) (fun _ => ⟨hsum, hz⟩) (by simp [hp])

theorem State.Running.inv_of_dec {s : State} (h : s.Running) (hp : s.phase = .dec)
    (hsum : s.seq.sum = (s.seq.rounds - s.seq.cyc) * delta)
    (hy : s.seq.y = s.blockWord ((s.seq.r.toNat + 1) % s.seq.n.toNat)) : s.Inv :=
  h.inv (by simp [hp]) (by simp [hp]) (fun _ => ⟨hsum, hy⟩)

/-! ### The host's operations -/

theorem word_zero_toNat : (0 : Word).toNat = 0 := rfl

theorem State.Inv.raiseFault {s : State} (hi : s.Inv) {code : FaultCode} (hk : code ≠ .keyLen) (hn : code ≠ .none) :
    (s.raiseFault code).Inv :=
  .of_notBusy hi.params_wf hi.mem_wf hi.mem_inWindow hk (by simp [hn]) rfl

theorem State.Inv.softReset {s : State} (hi : s.Inv) : s.softReset.Inv :=
  .of_idle hi.params_wf hi.mem_wf hi.mem_inWindow rfl rfl

theorem State.Inv.powerOn {s : State} (hi : s.Inv) : s.powerOn.Inv :=
  .of_idle hi.params_wf rfl rfl rfl rfl

/-- The bus's answer and the host's side are outside the invariant. -/
theorem State.Inv.respond {s : State} (hi : s.Inv) (a : Answer) : (s.respond a).Inv := hi.outside _ _ _ _ _

theorem State.Inv.issued {s : State} (hi : s.Inv) : s.issued.Inv := hi.outside _ _ _ _ _

theorem State.Inv.popTurn {s : State} (hi : s.Inv) : s.popTurn.Inv := hi.outside _ _ _ _ _

/-- A legal write while not BUSY keeps the canonical form of the buffer, and its bytes lie in the window (R51, R54). -/
theorem State.Inv.storeRegion {s : State} (hi : s.Inv) (hb : s.busy = false) {a : BitVec 32} {n : Size} {g : Region}
    (v : Word) (hg : busTarget s.params a n = some g) : (storeRegion g n v s).Inv := by
  have frame : ∀ {t : State}, t.params = s.params → t.mem = s.mem → t.fcode = s.fcode → t.phase = s.phase → t.Inv := by
    intro t hp hm hf hph
    exact .of_notBusy (hp ▸ hi.params_wf) (hm ▸ hi.mem_wf) (by rw [hp, hm]; exact hi.mem_inWindow)
      (hf ▸ hi.fcode_not_keyLen) (by rw [hf, hph]; exact hi.fcode_none_iff) (by rw [State.busy, hph]; exact hb)
  cases g with
  | ctrl | status | cap => exact hi
  | len | key j => exact frame rfl rfl rfl rfl
  | data b =>
    obtain ⟨ha, hlo, hhi, hoff⟩ := busTarget_data_iff.1 hg
    have hend := data_access_end (p := s.params) ha hhi
    have hfirst : dataBase ≤ dataBase + b := Nat.le_add_right _ _
    have hlast : dataBase + b + n.bytes ≤ dataBase + 4 * s.params.nmax := by unfold dataBase; omega
    exact .of_notBusy hi.params_wf (Memory.wf_store hi.mem_wf) (Memory.inWindow_store hfirst hlast hi.mem_inWindow)
      hi.fcode_not_keyLen hi.fcode_none_iff hb

/-- An accepted command starts with the operands of its length check and no cycle done (R144, R145). -/
theorem State.Inv.running_of_accept {s t : State} (hi : s.Inv) (hp : s.phase = .idle)
    (hl : checkLen s.params s.len = .none) {q : Sequencer}
    (e : t = { s with seq := q, done := false, phase := t.phase }) (hn : q.n = wordCount s.len)
    (hr : q.rounds = BitVec.ofNat 32 (Machine.rounds (wordCount s.len).toNat))
    (hr' : q.r.toNat < (wordCount s.len).toNat) (hc : q.cyc = 0) : t.Running := by
  rw [e]
  refine ⟨hi.params_wf, hi.mem_wf, hi.mem_inWindow, hi.fcode_of_not_faulted (by simp [hp]), rfl, hl, hn, ?_, ?_, ?_⟩
  · show q.rounds = BitVec.ofNat 32 (Machine.rounds q.n.toNat)
    rw [hr, hn]
  · show q.r.toNat < q.n.toNat
    rw [hn]; exact hr'
  · show q.cyc.toNat < q.rounds.toNat
    have := rounds_ge (wordCount s.len).toNat
    rw [hc, hr, rounds_toNat, word_zero_toNat]; omega

theorem State.Inv.acceptEncrypt {s : State} (hi : s.Inv) (hp : s.phase = .idle)
    (hl : checkLen s.params s.len = .none) : s.acceptEncrypt.Inv := by
  have hpos := (wordCount_bounds hl).1
  have run : s.acceptEncrypt.Running := hi.running_of_accept hp hl rfl rfl rfl (by simpa using hpos) rfl
  refine run.inv_of_enc rfl ?_ ?_
  · simp [State.acceptEncrypt]
  · show s.blockWord ((wordCount s.len).toNat - 1) =
      s.blockWord (((0 : Word).toNat + (wordCount s.len).toNat - 1) % (wordCount s.len).toNat)
    rw [word_zero_toNat, Nat.zero_add, Nat.mod_eq_of_lt (by omega)]

theorem State.Inv.acceptDecrypt {s : State} (hi : s.Inv) (hp : s.phase = .idle)
    (hl : checkLen s.params s.len = .none) : s.acceptDecrypt.Inv := by
  have hpos := (wordCount_bounds hl).1
  have hlast : (wordCount s.len - 1).toNat + 1 = (wordCount s.len).toNat := by bv_omega
  have hlt : (wordCount s.len - 1).toNat < (wordCount s.len).toNat := by omega
  have run : s.acceptDecrypt.Running := hi.running_of_accept hp hl rfl rfl rfl hlt rfl
  refine run.inv_of_dec rfl ?_ ?_
  · simp [State.acceptDecrypt, startSum]
  · show s.blockWord 0 = s.blockWord (((wordCount s.len - 1).toNat + 1) % (wordCount s.len).toNat)
    rw [hlast, Nat.mod_self]

theorem HostEffect.inv {op : HostOp} {s t : State} (h : HostEffect op s t) (hi : s.Inv) : t.Inv := by
  cases h with
  | quiet w d l a => exact hi.outside w d l s.turns (some a)
  | softReset => exact hi.softReset.respond _
  | acceptEncrypt _ hp hl => exact (hi.acceptEncrypt hp hl).respond _
  | acceptDecrypt _ hp hl => exact (hi.acceptDecrypt hp hl).respond _
  | fault w code _ _ cause =>
    rcases cause with ⟨-, rfl⟩ | ⟨-, rfl, hn⟩
    · exact (hi.raiseFault (by decide) (by decide)).respond _
    · exact (hi.raiseFault (checkLen_ne_keyLen _ _) hn).respond _
  | store a n v g _ hg _ hb => exact (hi.storeRegion hb v hg).respond _

/-! ### The engine -/

/-- CYC is below ROUNDS again when a cycle ends and the command does not (R151, R152). -/
theorem cyc_succ_lt {c r : Word} (h : c.toNat < r.toNat) (hne : c + 1 ≠ r) : (c + 1).toNat < r.toNat := by
  have : (c + 1).toNat ≠ r.toNat := fun e => hne (BitVec.eq_of_toNat_eq e)
  bv_omega

/-- Writing V[R] leaves everything of a running command but the word; R and CYC may then move inside their ranges. -/
theorem State.Running.setBlockWord {s : State} (h : s.Running) (x : Word) {q : Sequencer} (hn : q.n = s.seq.n)
    (hr : q.rounds = s.seq.rounds) (hr' : q.r.toNat < s.seq.n.toNat) (hc : q.cyc.toNat < s.seq.rounds.toNat) :
    State.Running { s.setBlockWord s.seq.r.toNat x with seq := q } where
  params_wf := h.params_wf
  mem_wf := Memory.wf_store h.mem_wf
  mem_inWindow := by
    have hb := (wordCount_bounds h.len).2
    have hlt := h.r
    rw [h.n] at hlt
    have hend : wordAddr s.seq.r.toNat + 4 ≤ dataBase + 4 * s.params.nmax := by unfold wordAddr; omega
    exact Memory.inWindow_store (Nat.le_add_right _ _) hend h.mem_inWindow
  fcode := h.fcode
  done := h.done
  len := h.len
  n := hn.trans h.n
  rounds := by show q.rounds = BitVec.ofNat 32 (Machine.rounds q.n.toNat); rw [hr, hn]; exact h.rounds
  r := by show q.r.toNat < q.n.toNat; rw [hn]; exact hr'
  cyc := by show q.cyc.toNat < q.rounds.toNat; rw [hr]; exact hc

/-- Completing a running command that has written V[R] (R153). -/
theorem State.Running.complete {s : State} (h : s.Running) (x : Word) :
    (s.setBlockWord s.seq.r.toNat x).complete.Inv := by
  have run := h.setBlockWord x (q := s.seq) rfl rfl h.r h.cyc
  exact .of_idle run.params_wf run.mem_wf run.mem_inWindow rfl run.fcode

/-- EncStep's sum is that of the cycle it works in, whether or not it begins it (R110, R151). -/
theorem State.Inv.encSum_eq {s : State} (hi : s.Inv) (hp : s.phase = .enc) : s.encSum = (s.seq.cyc + 1) * delta := by
  have h := hi.enc_sum hp
  unfold State.encSum
  by_cases h0 : s.seq.r = 0
  · rw [if_pos h0] at h ⊢
    rw [h]; ring
  · rw [if_neg h0] at h ⊢
    exact h

/-- V[R] after an engine step, in whatever sequencer state the step ends. -/
theorem State.blockWord_written (s : State) (i : Nat) (x : Word) (q : Sequencer) :
    State.blockWord { s.setBlockWord i x with seq := q } i = x := by
  have h := State.blockWord_setBlockWord s i i x
  rw [if_pos rfl] at h
  exact h

theorem State.Inv.encStep {s : State} (hi : s.Inv) (hp : s.phase = .enc) : s.encUpdate.encAdvance.Inv := by
  have run := hi.running ((State.busy_iff s).2 (.inl hp))
  have hr := run.r
  have hsum := hi.encSum_eq hp
  rcases State.encAdvance_cases (s := s.encUpdate) with ⟨hne, e⟩ | ⟨heq, hc, e⟩ | ⟨-, -, e⟩
  · -- inside a cycle: R + 1 is no wrap
    have hlt : s.seq.r.toNat + 1 ≠ s.seq.n.toNat := fun h => hne ((last_index_iff hr).2 h)
    have hsucc : (s.seq.r + 1).toNat = s.seq.r.toNat + 1 := by bv_omega
    have hne0 : s.seq.r + 1 ≠ 0 := fun h => by rw [h, word_zero_toNat] at hsucc; omega
    rw [e]
    refine (run.setBlockWord s.encValue (q := { s.encUpdate.seq with r := s.seq.r + 1 }) rfl rfl
      (by show (s.seq.r + 1).toNat < _; omega) run.cyc).inv_of_enc hp ?_ ?_
    · show s.encSum = (if s.seq.r + 1 = 0 then s.seq.cyc else s.seq.cyc + 1) * delta
      rw [if_neg hne0, hsum]
    · show s.encValue = State.blockWord _ (((s.seq.r + 1).toNat + s.seq.n.toNat - 1) % s.seq.n.toNat)
      rw [hsucc, show s.seq.r.toNat + 1 + s.seq.n.toNat - 1 = s.seq.r.toNat + s.seq.n.toNat by omega, Nat.add_mod_right,
        Nat.mod_eq_of_lt hr, State.blockWord_written]
  · -- the next cycle: its left neighbour is the last word, just written
    have hlast := (last_index_iff hr).1 heq
    rw [e]
    refine (run.setBlockWord s.encValue (q := { s.encUpdate.seq with r := 0, cyc := s.seq.cyc + 1 }) rfl rfl
      (by show (0 : Word).toNat < _; rw [word_zero_toNat]; omega) (cyc_succ_lt run.cyc hc)).inv_of_enc hp ?_ ?_
    · show s.encSum = (if (0 : Word) = 0 then s.seq.cyc + 1 else s.seq.cyc + 1 + 1) * delta
      rw [if_pos rfl, hsum]
    · show s.encValue = State.blockWord _ (((0 : Word).toNat + s.seq.n.toNat - 1) % s.seq.n.toNat)
      rw [word_zero_toNat, show 0 + s.seq.n.toNat - 1 = s.seq.r.toNat by omega, Nat.mod_eq_of_lt hr,
        State.blockWord_written]
  · rw [e]; exact run.complete s.encValue

theorem State.Inv.decStep {s : State} (hi : s.Inv) (hp : s.phase = .dec) : s.decUpdate.decAdvance.Inv := by
  have run := hi.running ((State.busy_iff s).2 (.inr hp))
  have hr := run.r
  have hsum := hi.dec_sum hp
  rcases State.decAdvance_cases (s := s.decUpdate) with ⟨hne, e⟩ | ⟨heq, hc, e⟩ | ⟨-, -, e⟩
  · -- inside a cycle: R - 1 is no wrap
    have hpred : (s.seq.r - 1).toNat + 1 = s.seq.r.toNat := by
      have : s.seq.r.toNat ≠ 0 := fun h => hne (BitVec.eq_of_toNat_eq h)
      bv_omega
    rw [e]
    refine (run.setBlockWord s.decValue (q := { s.decUpdate.seq with r := s.seq.r - 1 }) rfl rfl
      (by show (s.seq.r - 1).toNat < _; omega) run.cyc).inv_of_dec hp hsum ?_
    show s.decValue = State.blockWord _ (((s.seq.r - 1).toNat + 1) % s.seq.n.toNat)
    rw [hpred, Nat.mod_eq_of_lt hr, State.blockWord_written]
  · -- the next cycle: its right neighbour is V[0], just written
    have h0 : s.seq.r.toNat = 0 := by rw [show s.seq.r = 0 from heq, word_zero_toNat]
    have hlast : (s.seq.n - 1).toNat + 1 = s.seq.n.toNat := by bv_omega
    rw [e]
    refine (run.setBlockWord s.decValue
      (q := { s.decUpdate.seq with sum := s.seq.sum - delta, r := s.seq.n - 1, cyc := s.seq.cyc + 1 }) rfl rfl
      (by show (s.seq.n - 1).toNat < _; omega) (cyc_succ_lt run.cyc hc)).inv_of_dec hp ?_ ?_
    · show s.seq.sum - delta = (s.seq.rounds - (s.seq.cyc + 1)) * delta
      rw [hsum]; ring
    · show s.decValue = State.blockWord _ (((s.seq.n - 1).toNat + 1) % s.seq.n.toNat)
      rw [hlast, Nat.mod_self, ← h0, State.blockWord_written]
  · rw [e]; exact run.complete s.decValue

/-- While the invariant holds the engine has a next state, and it keeps the invariant. -/
theorem State.Inv.engineTurn {s : State} (hi : s.Inv) : ∃ t, engineTurn s = .next t ∧ t.Inv := by
  rcases hp : s.phase with _ | _ | _ | _
  case idle => exact ⟨s, engineTurn_notBusy ((State.not_busy_iff s).2 (.inl hp)), hi⟩
  case faulted => exact ⟨s, engineTurn_notBusy ((State.not_busy_iff s).2 (.inr hp)), hi⟩
  case enc =>
    have hb := hi.indexInBlock ((State.busy_iff s).2 (.inl hp))
    exact ⟨_, by rw [engineTurn_enc hp, Machine.encStep, if_pos hb], hi.encStep hp⟩
  case dec =>
    have hb := hi.indexInBlock ((State.busy_iff s).2 (.inr hp))
    exact ⟨_, by rw [engineTurn_dec hp, Machine.decStep, if_pos hb], hi.decStep hp⟩

/-! ### The step -/

theorem StepEffect.inv {s t : State} (h : StepEffect s t) (hi : s.Inv) : t.Inv := by
  cases h with
  | powerOn => exact hi.popTurn.powerOn
  | pass => exact hi.popTurn
  | engine _ _ e =>
    obtain ⟨u, eu, hu⟩ := hi.popTurn.engineTurn
    rw [eu] at e; cases e; exact hu
  | host op _ he => exact he.inv hi.issued

/-- The invariant keeps the machine running: a step from it has a next state. -/
theorem State.Inv.step_next {s : State} (hi : s.Inv) : ∃ t, step s = .next t := by
  rcases step_cases s with ⟨-, e⟩ | ⟨-, e⟩ | ⟨-, -, e⟩ | ⟨op, -, e⟩ <;> rw [e]
  · exact ⟨_, rfl⟩
  · obtain ⟨t, e, -⟩ := hi.popTurn.engineTurn
    exact ⟨t, e⟩
  · exact ⟨_, rfl⟩
  · obtain ⟨t, e, -⟩ := hostOp_effect op s.issued
    exact ⟨t, e⟩

/-- Settles O7: each effect of a step keeps the invariant. -/
theorem everyStepKeepsTheInvariant : Obligations.EveryStepKeepsTheInvariant := by
  intro s t hi h
  exact (step_effect h).inv hi

/-- Settles O6: the reset state is in IDLE with FCODE = 0 and an empty buffer. -/
theorem resetStateMeetsTheInvariant : Obligations.ResetStateMeetsTheInvariant :=
  .of_idle (by decide) rfl rfl rfl rfl

/-! # The sequencer registers outside a command are never observed (R32)

A simulation. While a command runs two runs may still differ: AcceptEncrypt does not write Y and AcceptDecrypt does not write
Z (R144, R145), and no step of that command reads it. -/

/-- `u` is `s` but for sequencer registers that no rule reads in `s`'s phase: all of them outside a command, Y in ENC, Z in
DEC. -/
structure SeqTwin (s u : State) : Prop where
  eq : u = { s with seq := u.seq }
  enc : s.phase = .enc → u.seq = { s.seq with y := u.seq.y }
  dec : s.phase = .dec → u.seq = { s.seq with z := u.seq.z }

/-- Both outcomes are next states, and the second is a twin of the first. -/
def NextTwins (o o' : Host.Outcome State Fault Refusal) : Prop :=
  ∃ t t', o = .next t ∧ o' = .next t' ∧ SeqTwin t t'

theorem SeqTwin.refl (s : State) : SeqTwin s s := ⟨rfl, fun _ => rfl, fun _ => rfl⟩

theorem SeqTwin.of_notBusy {s : State} (hb : s.busy = false) (q : Sequencer) : SeqTwin s { s with seq := q } where
  eq := rfl
  enc h := by rw [(State.busy_iff s).2 (.inl h)] at hb; cases hb
  dec h := by rw [(State.busy_iff s).2 (.inr h)] at hb; cases hb

/-- In ENC a state and its twin differ in Y alone. -/
theorem SeqTwin.of_enc {s : State} (hp : s.phase = .enc) (y : Word) :
    SeqTwin s { s with seq := { s.seq with y := y } } where
  eq := rfl
  enc _ := rfl
  dec h := by rw [hp] at h; cases h

/-- In DEC a state and its twin differ in Z alone. -/
theorem SeqTwin.of_dec {s : State} (hp : s.phase = .dec) (z : Word) :
    SeqTwin s { s with seq := { s.seq with z := z } } where
  eq := rfl
  enc h := by rw [hp] at h; cases h
  dec _ := rfl

theorem NextTwins.of_twin {t t' : State} (h : SeqTwin t t') : NextTwins (.next t) (.next t') := ⟨t, t', rfl, rfl, h⟩

theorem NextTwins.refl (t : State) : NextTwins (.next t) (.next t) := .of_twin (.refl t)

section Twins
variable {s u : State} (h : SeqTwin s u)
include h

/-- What is no sequencer register is the same in a twin. -/
theorem SeqTwin.field_eq {α : Type} (f : State → α) (hf : ∀ v q, f { v with seq := q } = f v) : f u = f s := by
  rw [h.eq, hf]

/-- An update that neither reads nor writes the sequencer registers and keeps PHASE keeps twins. -/
theorem SeqTwin.map (f : State → State) (hf : ∀ v q, f { v with seq := q } = { f v with seq := q })
    (hseq : ∀ v, (f v).seq = v.seq) (hphase : ∀ v, (f v).phase = v.phase) : SeqTwin (f s) (f u) where
  eq := by rw [hseq u, ← hf, ← h.eq]
  enc hp := by rw [hseq, hseq]; exact h.enc (by rw [← hphase, hp])
  dec hp := by rw [hseq, hseq]; exact h.dec (by rw [← hphase, hp])

theorem SeqTwin.popTurn : SeqTwin s.popTurn u.popTurn :=
  h.map State.popTurn (fun _ _ => rfl) (fun _ => rfl) (fun _ => rfl)

theorem SeqTwin.issued : SeqTwin s.issued u.issued :=
  h.map State.issued (fun _ _ => rfl) (fun _ => rfl) (fun _ => rfl)

theorem SeqTwin.respond (a : Answer) : SeqTwin (s.respond a) (u.respond a) :=
  h.map (State.respond a) (fun _ _ => rfl) (fun _ => rfl) (fun _ => rfl)

theorem SeqTwin.dropWrite : SeqTwin s.dropWrite u.dropWrite :=
  h.map State.dropWrite (fun _ _ => rfl) (fun _ => rfl) (fun _ => rfl)

theorem SeqTwin.storeRegion (g : Region) (n : Size) (v : Word) : SeqTwin (storeRegion g n v s) (storeRegion g n v u) :=
  h.map (Machine.storeRegion g n v) (fun _ _ => by cases g <;> rfl) (fun _ => by cases g <;> rfl)
    (fun _ => by cases g <;> rfl)

theorem SeqTwin.phase_eq : u.phase = s.phase := h.field_eq State.phase fun _ _ => rfl

theorem SeqTwin.busy_eq : u.busy = s.busy := h.field_eq State.busy fun _ _ => rfl

theorem SeqTwin.params_eq : u.params = s.params := h.field_eq State.params fun _ _ => rfl

/-! ### Commands -/

theorem SeqTwin.powerOn_eq : u.powerOn = s.powerOn := h.field_eq State.powerOn fun _ _ => rfl

theorem SeqTwin.softReset_eq : u.softReset = s.softReset := h.field_eq State.softReset fun _ _ => rfl

theorem SeqTwin.raiseFault (c : FaultCode) : SeqTwin (s.raiseFault c) (u.raiseFault c) := by
  rw [h.eq]; exact .of_notBusy rfl u.seq

theorem SeqTwin.acceptEncrypt : SeqTwin s.acceptEncrypt u.acceptEncrypt := by
  rw [h.eq]; exact .of_enc rfl u.seq.y

theorem SeqTwin.acceptDecrypt : SeqTwin s.acceptDecrypt u.acceptDecrypt := by
  rw [h.eq]; exact .of_dec rfl u.seq.z

theorem SeqTwin.checkThen {accept : State → State} (ha : SeqTwin (accept s) (accept u)) :
    SeqTwin (s.checkThen accept) (u.checkThen accept) := by
  have hl : checkLen u.params u.len = checkLen s.params s.len :=
    h.field_eq (fun v => checkLen v.params v.len) fun _ _ => rfl
  unfold State.checkThen
  rw [hl]
  split
  · exact ha
  · exact h.raiseFault _

theorem SeqTwin.acceptInIdle {accept : State → State} (ha : SeqTwin (accept s) (accept u)) :
    SeqTwin (s.acceptInIdle accept) (u.acceptInIdle accept) := by
  unfold State.acceptInIdle
  rw [h.phase_eq]
  cases s.phase with
  | idle => exact ha
  | enc | dec => exact h.dropWrite
  | faulted => exact h

theorem SeqTwin.command (w : Word) : NextTwins (command w s) (command w u) := by
  rcases decode_cases w with ⟨-, d⟩ | ⟨-, d⟩ | ⟨-, d⟩ | ⟨-, d⟩ | ⟨-, -, why, d⟩
  · simp only [Machine.command, d, exec, execSrst, h.softReset_eq]; exact .refl _
  · simp only [Machine.command, d, exec, execNop]; exact .of_twin (h.acceptInIdle h)
  · simp only [Machine.command, d, exec, execEncrypt]; exact .of_twin (h.acceptInIdle (h.checkThen h.acceptEncrypt))
  · simp only [Machine.command, d, exec, execDecrypt]; exact .of_twin (h.acceptInIdle (h.checkThen h.acceptDecrypt))
  · simp only [Machine.command, d, illegalCommand]; exact .of_twin (h.acceptInIdle (h.raiseFault _))

/-! ### The bus -/

/-- A read answers twins alike: no register of the map is a sequencer register (R51, R55). -/
theorem SeqTwin.memRead (a : BitVec 32) (n : Size) :
    (memRead a n u).1 = (memRead a n s).1 ∧ SeqTwin (memRead a n s).2 (memRead a n u).2 := by
  have hstatus : u.status = s.status := h.field_eq State.status fun _ _ => rfl
  have hlen : u.len = s.len := h.field_eq State.len fun _ _ => rfl
  have hcap : u.cap = s.cap := h.field_eq State.cap fun _ _ => rfl
  have hkey : u.key = s.key := h.field_eq State.key fun _ _ => rfl
  have hbyte : u.blockByte = s.blockByte := h.field_eq State.blockByte fun _ _ => rfl
  have hdraws : u.draws = s.draws := h.field_eq State.draws fun _ _ => rfl
  have hcount : SeqTwin { s with draws := s.draws + 1 } { u with draws := u.draws + 1 } :=
    h.map (fun v => { v with draws := v.draws + 1 }) (fun _ _ => rfl) (fun _ => rfl) (fun _ => rfl)
  rw [h.params_eq, hlen, hkey, hdraws] at hcount
  unfold Machine.memRead
  rw [h.params_eq, h.busy_eq, hstatus, hlen, hcap, hkey, hbyte, hdraws]
  split
  case h_7 =>
    split
    · exact ⟨rfl, hcount⟩
    · exact ⟨rfl, h⟩
  all_goals exact ⟨rfl, h⟩

theorem SeqTwin.memWrite (a : BitVec 32) (n : Size) (v : Word) : NextTwins (memWrite a n v s) (memWrite a n v u) := by
  unfold Machine.memWrite
  rw [h.params_eq, h.busy_eq]
  split
  · exact .of_twin (h.respond _)
  · obtain ⟨t, t', e, e', ht⟩ := h.command v
    rw [e, e']; exact .of_twin (ht.respond _)
  · split
    · exact .of_twin (h.dropWrite.respond _)
    · exact .of_twin ((h.storeRegion _ n v).respond _)

theorem SeqTwin.hostOp (op : HostOp) : NextTwins (hostOp op s) (hostOp op u) := by
  cases op with
  | read a n =>
    obtain ⟨ha, ht⟩ := h.memRead a n
    simp only [Machine.hostOp, ha]
    exact .of_twin (ht.respond _)
  | write a n v => exact h.memWrite a n v
  | poll off mask val =>
    obtain ⟨ha, ht⟩ := h.memRead off .word
    simp only [Machine.hostOp, ha]
    split
    · exact .of_twin (ht.respond _)
    · exact .of_twin ((ht.respond _).map (fun v => { v with host := .poll off mask val :: v.host }) (fun _ _ => rfl)
        (fun _ => rfl) (fun _ => rfl))

/-! ### The engine -/

/-- While a command runs a twin has the same operands, sum and indices. -/
theorem SeqTwin.operands (hb : s.busy = true) :
    u.seq.n = s.seq.n ∧ u.seq.rounds = s.seq.rounds ∧ u.seq.sum = s.seq.sum ∧ u.seq.r = s.seq.r ∧
      u.seq.cyc = s.seq.cyc := by
  rcases (State.busy_iff s).1 hb with hp | hp
  · rw [h.enc hp]; exact ⟨rfl, rfl, rfl, rfl, rfl⟩
  · rw [h.dec hp]; exact ⟨rfl, rfl, rfl, rfl, rfl⟩

/-- An update of the sequencer registers that leaves Y and Z alone keeps twins. -/
theorem SeqTwin.mapSeq (f : Sequencer → Sequencer) (hy : ∀ q y, f { q with y := y } = { f q with y := y })
    (hz : ∀ q z, f { q with z := z } = { f q with z := z }) :
    SeqTwin { s with seq := f s.seq } { u with seq := f u.seq } where
  eq := congrArg (fun v : State => { v with seq := f u.seq }) h.eq
  enc hp := by
    show f u.seq = { f s.seq with y := (f u.seq).y }
    rw [h.enc hp, hy]
  dec hp := by
    show f u.seq = { f s.seq with z := (f u.seq).z }
    rw [h.dec hp, hz]

theorem SeqTwin.complete : SeqTwin s.complete u.complete := by
  rw [h.field_eq State.complete fun _ _ => rfl]; exact .refl _

theorem SeqTwin.endCycle (hb : s.busy = true) : SeqTwin s.endCycle u.endCycle := by
  obtain ⟨-, hrounds, -, -, hcyc⟩ := h.operands hb
  have next := h.mapSeq (fun q => { q with cyc := s.seq.cyc + 1 }) (fun _ _ => rfl) (fun _ _ => rfl)
  unfold State.endCycle
  rw [hrounds, hcyc]
  split
  · exact next.complete
  · exact next

theorem SeqTwin.encAdvance (hb : s.busy = true) : SeqTwin s.encAdvance u.encAdvance := by
  obtain ⟨hn, -, -, hr, -⟩ := h.operands hb
  unfold State.encAdvance
  rw [hn, hr]
  split
  · exact (h.mapSeq (fun q => { q with r := 0 }) (fun _ _ => rfl) (fun _ _ => rfl)).endCycle hb
  · exact h.mapSeq (fun q => { q with r := s.seq.r + 1 }) (fun _ _ => rfl) (fun _ _ => rfl)

theorem SeqTwin.decAdvance (hb : s.busy = true) : SeqTwin s.decAdvance u.decAdvance := by
  obtain ⟨hn, -, hsum, hr, -⟩ := h.operands hb
  unfold State.decAdvance
  rw [hn, hsum, hr]
  split
  · exact (h.mapSeq (fun q => { q with sum := s.seq.sum - delta, r := s.seq.n - 1 }) (fun _ _ => rfl)
      (fun _ _ => rfl)).endCycle hb
  · exact h.mapSeq (fun q => { q with r := s.seq.r - 1 }) (fun _ _ => rfl) (fun _ _ => rfl)

/-- EncStep's round does not read Y (R151). -/
theorem SeqTwin.encUpdate (hp : s.phase = .enc) : SeqTwin s.encUpdate u.encUpdate := by
  have e : u = { s with seq := { s.seq with y := u.seq.y } } := (h.enc hp) ▸ h.eq
  rw [e]; exact .of_enc (s := s.encUpdate) hp u.seq.y

/-- DecStep's round does not read Z (R152). -/
theorem SeqTwin.decUpdate (hp : s.phase = .dec) : SeqTwin s.decUpdate u.decUpdate := by
  have e : u = { s with seq := { s.seq with z := u.seq.z } } := (h.dec hp) ▸ h.eq
  rw [e]; exact .of_dec (s := s.decUpdate) hp u.seq.z

theorem SeqTwin.indexInBlock_eq (hb : s.busy = true) : u.indexInBlock = s.indexInBlock := by
  obtain ⟨hn, -, -, hr, -⟩ := h.operands hb
  rw [State.indexInBlock, State.indexInBlock, hn, hr, h.params_eq]

theorem SeqTwin.engineTurn (hi : s.Inv) : NextTwins (engineTurn s) (engineTurn u) := by
  rcases hb : s.busy with _ | _
  case false =>
    rw [engineTurn_notBusy hb, engineTurn_notBusy (h.busy_eq.trans hb)]
    exact .of_twin h
  case true =>
    have hin := hi.indexInBlock hb
    have hin' := (h.indexInBlock_eq hb).trans hin
    rcases (State.busy_iff s).1 hb with hp | hp
    · rw [engineTurn_enc hp, engineTurn_enc (h.phase_eq.trans hp), encStep, encStep, if_pos hin, if_pos hin']
      exact .of_twin ((h.encUpdate hp).encAdvance hb)
    · rw [engineTurn_dec hp, engineTurn_dec (h.phase_eq.trans hp), decStep, decStep, if_pos hin, if_pos hin']
      exact .of_twin ((h.decUpdate hp).decAdvance hb)

/-! ### Steps and runs -/

theorem SeqTwin.nextTurn_eq : u.nextTurn = s.nextTurn := h.field_eq State.nextTurn fun _ _ => rfl

theorem SeqTwin.host_eq : u.host = s.host := h.field_eq State.host fun _ _ => rfl

/-- One step keeps twins: the commuting square of the simulation. -/
theorem SeqTwin.step (hi : s.Inv) : NextTwins (step s) (step u) := by
  have hn := h.nextTurn_eq
  rcases step_cases s with ⟨ht, e⟩ | ⟨ht, e⟩ | ⟨ht, hh, e⟩ | ⟨op, hop, e⟩ <;> rw [e]
  · rw [step_of_powerOn (hn.trans ht), h.popTurn.powerOn_eq]
    exact .refl _
  · rw [step_of_engine (hn.trans ht)]
    exact h.popTurn.engineTurn hi.popTurn
  · rw [step_of_host_empty (hn.trans ht) (h.host_eq.trans hh)]
    exact .of_twin h.popTurn
  · obtain ⟨ht, hh⟩ := hop
    rw [step_of_host (op := op) ⟨hn.trans ht, by rw [h.host_eq, hh]⟩]
    exact h.issued.hostOp op

end Twins

theorem SeqTwin.run (k : Nat) {s u : State} (h : SeqTwin s u) (hi : s.Inv) :
    NextTwins (Host.Core.run core k s) (Host.Core.run core k u) := by
  induction k generalizing s u with
  | zero => exact .of_twin h
  | succ k ih =>
    obtain ⟨t, t', e, e', ht⟩ := h.step hi
    rw [core_run_succ k e, core_run_succ k e']
    exact ih ht ((step_effect e).inv hi)

/-- Settles O52: the two starting states are twins, and every run keeps twins. -/
theorem idleSequencerIsNeverObserved : Obligations.IdleSequencerIsNeverObserved := by
  intro s q k hi hb
  obtain ⟨t, t', e, e', ht⟩ := (SeqTwin.of_notBusy hb q).run k hi
  exact ⟨t, t'.seq, e, e'.trans (congrArg _ ht.eq)⟩

/-! # What an event changes: DONE, the operands, the parameters, the block buffer -/

/-- Settles O50: no effect of a step writes the parameters. -/
theorem capIsConstant : Obligations.CapIsConstant := by
  intro s t h
  have hparams : t.params = s.params := by
    cases step_effect h with
    | powerOn | pass => rfl
    | engine _ busy eq =>
      obtain ⟨-, x, ⟨q, rfl, -, -⟩ | rfl⟩ := engineTurn_frame (s := s.popTurn) busy eq <;> rfl
    | host op _ he =>
      cases he with
      | quiet | softReset | acceptEncrypt | acceptDecrypt | fault => rfl
      | store _ _ _ g => cases g <;> rfl
  have hcap : t.cap = BitVec.ofNat 32 s.params.nmax := by rw [State.cap, hparams]
  exact ⟨hparams, hcap, hcap⟩

/-- Settles O48: of the effects of a step only a completion, an acceptance and a reset write DONE. -/
theorem doneChangesOnlyAsStated : Obligations.DoneChangesOnlyAsStated := by
  intro s t h hne
  cases step_effect h with
  | powerOn turn => exact .inr ⟨rfl, .inl (.inl turn)⟩
  | pass => exact absurd rfl hne
  | engine turn busy eq =>
    obtain ⟨-, x, ⟨q, rfl, -, -⟩ | rfl⟩ := engineTurn_frame (s := s.popTurn) busy eq
    · exact absurd rfl hne
    · exact .inl ⟨rfl, turn, busy, rfl⟩
  | host op issues he =>
    cases he with
    | quiet => exact absurd rfl hne
    | softReset reset => exact .inr ⟨rfl, .inl (State.resetsNext_of_issues issues reset)⟩
    | acceptEncrypt write idle => exact .inr ⟨rfl, .inr ⟨idle, rfl, .inl (write ▸ issues)⟩⟩
    | acceptDecrypt write idle => exact .inr ⟨rfl, .inr ⟨idle, rfl, .inr (write ▸ issues)⟩⟩
    | fault => exact absurd rfl hne
    | store _ _ _ g => cases g <;> exact absurd rfl hne

/-- Settles O49: while BUSY the host can only reset or act quietly, and the engine keeps the operands until it completes. -/
theorem operandsAreFixedWhileBusy : Obligations.OperandsAreFixedWhileBusy := by
  intro s t hb h
  have notIdle : s.issued.phase ≠ .idle := fun hp => by rw [State.busy_of_idle (s := s) hp] at hb; cases hb
  cases step_effect h with
  | powerOn turn => exact .inl (.inl turn)
  | pass => exact .inr ⟨rfl, rfl, fun _ => ⟨rfl, rfl, rfl⟩⟩
  | engine turn busy eq =>
    obtain ⟨-, x, ⟨q, rfl, hn, hr⟩ | rfl⟩ := engineTurn_frame (s := s.popTurn) busy eq
    · exact .inr ⟨rfl, rfl, fun _ => ⟨hn, hr, rfl⟩⟩
    · exact .inr ⟨rfl, rfl, fun hbusy => by simp at hbusy⟩
  | host op issues he =>
    cases he with
    | quiet => exact .inr ⟨rfl, rfl, fun _ => ⟨rfl, rfl, rfl⟩⟩
    | softReset reset => exact .inl (State.resetsNext_of_issues issues reset)
    | acceptEncrypt _ idle => exact absurd idle notIdle
    | acceptDecrypt _ idle => exact absurd idle notIdle
    | fault _ _ _ idle => exact absurd idle notIdle
    | store _ _ _ _ _ _ _ notBusy => rw [State.issued_busy, hb] at notBusy; cases notBusy

/-- A byte that a store of `n` bytes at `b` changes is one of those it addresses (R56). -/
theorem State.addressed_of_store {s : State} {a b n : Nat} {v : Word}
    (h : State.blockByte { s with mem := Memory.store b v n s.mem } a ≠ s.blockByte a) : b ≤ a ∧ a < b + n := by
  by_contra hout
  refine h ?_
  simp only [State.blockByte, State.unlistedByte, Memory.get_store, if_neg hout]

/-- Settles O51: of the effects of a step only power-on, an engine step and a write to the DATA window write the buffer. -/
theorem blockBufferChangesOnlyAsStated : Obligations.BlockBufferChangesOnlyAsStated := by
  intro s t a _ h hne
  cases step_effect h with
  | powerOn turn => exact .inl turn
  | pass => exact absurd rfl hne
  | engine turn busy eq =>
    obtain ⟨hr, x, ht⟩ := engineTurn_frame (s := s.popTurn) busy eq
    have hbyte : t.blockByte = (s.setBlockWord s.seq.r.toNat x).blockByte := by
      rcases ht with ⟨q, rfl, -, -⟩ | rfl <;> exact State.blockByte_congr rfl rfl
    rw [hbyte] at hne
    have haddr := State.addressed_of_store hne
    unfold wordAddr dataBase at haddr
    rw [State.popTurn_seq] at hr
    exact .inr (.inl ⟨turn, busy, by omega, by omega⟩)
  | host op issues he =>
    cases he with
    | quiet | softReset | acceptEncrypt | acceptDecrypt | fault => exact absurd rfl hne
    | store b n v g write target _ notBusy =>
      cases g with
      | ctrl | status | len | cap | key => exact absurd rfl hne
      | data off =>
        obtain ⟨-, hlo, -, hoff⟩ := busTarget_data_iff.1 target
        have haddr := State.addressed_of_store hne
        unfold dataBase at haddr
        exact .inr (.inr ⟨notBusy, b, n, v, write ▸ issues, by omega, by omega⟩)

/-! # Resets -/

theorem status_eq_zero {t : State} (hp : t.phase = .idle) (hf : t.fcode = .none) (hd : t.done = false)
    (hw : t.werr = false) : t.status = 0 := by
  simp only [State.status, State.busy, State.faulted, hp, hf, hd, hw]
  decide

theorem replicate_zero_get (i : Fin 4) : (Vector.replicate 4 (0 : Word))[i] = 0 := by simp

/-- Settles O5, by evaluating the two resets; the buffer's words are kept because SRST writes neither it nor the epoch. -/
theorem resetsLeaveTheValuesOfTheTable : Obligations.ResetsLeaveTheValuesOfTheTable := by
  refine ⟨fun s ht => ?_, fun s ignored => ?_, ?_⟩
  · exact ⟨_, step_of_powerOn ht, rfl, status_eq_zero rfl rfl rfl rfl, rfl, rfl, rfl, rfl, replicate_zero_get, rfl⟩
  · exact ⟨_, rfl, rfl, status_eq_zero rfl rfl rfl rfl, rfl, rfl, rfl, rfl, replicate_zero_get, rfl,
      congrFun (State.blockWord_congr rfl rfl)⟩
  · exact ⟨rfl, status_eq_zero rfl rfl rfl rfl, rfl, replicate_zero_get, rfl⟩

/-! # STATUS -/

/-- A register built by appending a flag below the bits above it. -/
theorem getLsbD_append_flag {n : Nat} (x : BitVec n) (b : Bool) (i : Nat) :
    (x ++ BitVec.ofBool b).getLsbD i = if i = 0 then b else x.getLsbD (i - 1) := by
  rw [BitVec.getLsbD_append]
  cases i <;> simp

/-- The bits of STATUS: four flags, then FCODE, then zeros (R25). -/
theorem State.status_getLsbD (s : State) (i : Nat) :
    s.status.getLsbD i =
      if i = 0 then s.busy else if i = 1 then s.done else if i = 2 then s.faulted else if i = 3 then s.werr
      else s.fcode.bits.getLsbD (i - 4) := by
  have hcode (j : Nat) : (0#24 ++ s.fcode.bits).getLsbD j = s.fcode.bits.getLsbD j := by
    rw [BitVec.getLsbD_append, BitVec.getLsbD_zero]
    split
    · rfl
    · exact (BitVec.getLsbD_of_ge _ _ (by omega)).symm
  have hlayers : s.status.getLsbD i =
      (0#24 ++ s.fcode.bits ++ BitVec.ofBool s.werr ++ BitVec.ofBool s.faulted ++ BitVec.ofBool s.done ++
        BitVec.ofBool s.busy).getLsbD i := rfl
  rw [hlayers]
  simp only [getLsbD_append_flag, hcode]
  rcases i with _ | _ | _ | _ | i <;> rfl

theorem State.status_fcode (s : State) : s.status.extractLsb' 4 4 = s.fcode.bits := by
  apply BitVec.eq_of_getLsbD_eq
  intro i hi
  rw [BitVec.getLsbD_extractLsb', s.status_getLsbD, if_neg (by omega), if_neg (by omega), if_neg (by omega),
    if_neg (by omega), Nat.add_sub_cancel_left, decide_eq_true hi, Bool.true_and]

theorem State.status_high (s : State) : s.status.extractLsb' 8 24 = 0 := by
  apply BitVec.eq_of_getLsbD_eq
  intro i hi
  rw [BitVec.getLsbD_extractLsb', s.status_getLsbD, if_neg (by omega), if_neg (by omega), if_neg (by omega),
    if_neg (by omega), BitVec.getLsbD_of_ge s.fcode.bits _ (by omega), Bool.and_false]
  exact BitVec.getLsbD_zero.symm

theorem State.faulted_iff (s : State) : s.faulted = true ↔ s.phase = .faulted := by simp [State.faulted]

/-- The codes in use (R170). -/
theorem FaultCode.bits_ne_one_of_ne_keyLen {c : FaultCode} (h : c ≠ .keyLen) : c.bits ≠ 1 := by
  cases c <;> first | decide | exact absurd rfl h

theorem FaultCode.bits_lt_six (c : FaultCode) : c.bits.toNat < 6 := by cases c <;> decide

/-- Settles O34, from the bits of STATUS and the invariant's clauses for DONE and FCODE. -/
theorem statusFields : Obligations.StatusFields := by
  intro s
  have hbusy : s.status.getLsbD 0 = s.busy := s.status_getLsbD 0
  have hdone : s.status.getLsbD 1 = s.done := s.status_getLsbD 1
  have hfault : s.status.getLsbD 2 = s.faulted := s.status_getLsbD 2
  have hwerr : s.status.getLsbD 3 = s.werr := s.status_getLsbD 3
  rw [hbusy, hdone, hfault, hwerr, s.status_fcode, s.status_high, s.faulted_iff]
  refine ⟨s.busy_iff, rfl, Iff.rfl, rfl, rfl, rfl, ?_, fun hi => ⟨fun hd => ?_, fun hf => ?_, ?_, s.fcode.bits_lt_six⟩⟩
  · rintro ⟨hb, hp⟩
    rw [(State.not_busy_iff s).2 (.inr hp)] at hb; cases hb
  · by_contra hb
    rw [hi.busy_done (by simpa using hb)] at hd; cases hd
  · have hp : s.phase ≠ .faulted := fun hp => by rw [s.faulted_iff.2 hp] at hf; cases hf
    rw [hi.fcode_of_not_faulted hp]; rfl
  · exact FaultCode.bits_ne_one_of_ne_keyLen hi.fcode_not_keyLen

/-! # Reads and writes of the registers -/

/-- Settles O33: each of the four addresses reaches its register. -/
theorem registerReads : Obligations.RegisterReads := by
  intro s
  refine ⟨fun h => ?_, fun h => ?_, fun h => ?_, fun h => ?_⟩
  · exact step_of_quiet_read h (memRead_ctrl (busTarget_ctrl_iff.2 ⟨rfl, rfl⟩))
  · exact step_of_quiet_read h (memRead_status (busTarget_status_iff.2 ⟨rfl, rfl⟩))
  · exact step_of_quiet_read h (memRead_len (busTarget_len_iff.2 ⟨rfl, rfl⟩))
  · exact step_of_quiet_read h (memRead_cap (busTarget_cap_iff.2 ⟨rfl, rfl⟩))

/-- An n-byte value has 8·n bits (R55). -/
theorem gather_toNat_lt (f : Nat → Byte) (j : Nat) (n : Nat) : (gather f j n).toNat < 2 ^ (8 * n) := by
  induction n with
  | zero => simp [gather]
  | succ n ih =>
    rw [gather, BitVec.toNat_or]
    refine Nat.or_lt_two_pow (ih.trans (Nat.pow_lt_pow_right (by decide) (by omega))) ?_
    rw [BitVec.toNat_shiftLeft, Nat.shiftLeft_eq]
    refine (Nat.mod_le _ _).trans_lt ?_
    calc (BitVec.setWidth 32 (f (j + n))).toNat * 2 ^ (8 * n)
        < 2 ^ 8 * 2 ^ (8 * n) := by
          refine Nat.mul_lt_mul_of_pos_right ?_ (by positivity)
          rw [BitVec.toNat_setWidth]
          exact (Nat.mod_le _ _).trans_lt (f (j + n)).isLt
      _ = 2 ^ (8 * (n + 1)) := by ring

/-- The four key bytes of K[i] put together are K[i] (R21, R52). -/
theorem gather_keyByte (k : Vector Word 4) (i : Nat) (hi : i < 4) : gather (keyByte k) (4 * i) 4 = k[i] := by
  refine gather_byteLane _ _ _ fun t ht => ?_
  have hword : (4 * i + t) / 4 = i := by omega
  have hlane : (4 * i + t) % 4 = t := by omega
  rw [keyByte, hword, hlane, Vector.getElem?_eq_getElem hi, Option.getD_some]

/-- Settles O35: the answer is the gathered key bytes, of which four aligned ones are a key word. -/
theorem keyWindowReads : Obligations.KeyWindowReads := by
  intro s a n hlo hhi hal h
  have target : busTarget s.issued.params a n = some (.key (a.toNat - 0x010)) :=
    busTarget_key_iff.2 ⟨hal, hlo, hhi, rfl⟩
  have hn : n.bytes ≤ 4 := by cases n <;> decide
  refine ⟨gather (keyByte s.key) (a.toNat - 0x010) n.bytes, step_of_quiet_read h (memRead_key target),
    fun t ht => byteLane_gather _ _ _ t hn ht, gather_toNat_lt _ _ _, ?_⟩
  rintro rfl
  have hi : (a.toNat - 0x010) / 4 < 4 := by omega
  have hoff : a.toNat - 0x010 = 4 * ((a.toNat - 0x010) / 4) := by
    have : a.toNat % 4 = 0 := hal
    omega
  rw [Vector.getElem?_eq_getElem hi, ← gather_keyByte s.key _ hi, ← hoff]
  rfl

/-- Settles O39: of the four outcomes of a write only the store is left. -/
theorem lenStoresEveryValue : Obligations.LenStoresEveryValue := by
  intro s v hb h
  have target : busTarget s.issued.params 0x008 .word = some .len := busTarget_len_iff.2 ⟨rfl, rfl⟩
  rw [step_of_host h]
  rcases memWrite_cases 0x008 .word v s.issued with ⟨hg, -⟩ | ⟨hg, -⟩ | ⟨g, -, -, hb', -⟩ | ⟨g, hg, -, -, e⟩
  · rw [target] at hg; cases hg
  · rw [target] at hg; cases hg
  · rw [State.issued_busy, hb] at hb'; cases hb'
  · rw [target] at hg; cases hg
    exact e

end Sys2Proof.Machine

namespace Sys2Proof.Machine

/-! # Runs from the invariant -/

/-- Settles O8, by induction on the number of steps: the invariant gives each step a next state, which meets it again. -/
theorem runsFromTheInvariantAreSafe : Obligations.RunsFromTheInvariantAreSafe := by
  intro s hi k
  induction k generalizing s with
  | zero => exact ⟨s, core_run_zero s⟩
  | succ k ih =>
    obtain ⟨t, e⟩ := hi.step_next
    rw [core_run_succ k e]
    exact ih t ((step_effect e).inv hi)

/-! # Packing (R53) -/

/-- Four bytes put together, the first in the low lane, are the value gathered from them. -/
theorem append_eq_gather (f : Nat → Byte) : (f 3 ++ f 2 ++ f 1 ++ f 0 : BitVec 32) = gather f 0 4 := by
  apply BitVec.eq_of_getLsbD_eq
  intro i hi
  simp only [gather, BitVec.getLsbD_append, BitVec.getLsbD_or, BitVec.getLsbD_shiftLeft, BitVec.getLsbD_setWidth]
  interval_cases i <;> simp

/-- The lanes of four bytes put together are the bytes (R52). -/
theorem byteLane_append (b0 b1 b2 b3 : Byte) :
    byteLane (b3 ++ b2 ++ b1 ++ b0 : BitVec 32) 0 = b0 ∧ byteLane (b3 ++ b2 ++ b1 ++ b0 : BitVec 32) 1 = b1 ∧
    byteLane (b3 ++ b2 ++ b1 ++ b0 : BitVec 32) 2 = b2 ∧ byteLane (b3 ++ b2 ++ b1 ++ b0 : BitVec 32) 3 = b3 := by
  have e : (b3 ++ b2 ++ b1 ++ b0 : BitVec 32) = gather (fun i => [b0, b1, b2, b3].getD i 0) 0 4 :=
    append_eq_gather fun i => [b0, b1, b2, b3].getD i 0
  have lane (t : Nat) (ht : t < 4) := byteLane_gather (fun i => [b0, b1, b2, b3].getD i 0) 0 4 t le_rfl ht
  rw [e]
  exact ⟨lane 0 (by decide), lane 1 (by decide), lane 2 (by decide), lane 3 (by decide)⟩

theorem append_byteLane (w : Word) :
    (byteLane w 3 ++ byteLane w 2 ++ byteLane w 1 ++ byteLane w 0 : BitVec 32) = w :=
  (append_eq_gather (byteLane w)).trans (gather_byteLane w 0 (byteLane w) (by simp))

theorem pack_unpack (ws : List Word) : pack (unpack ws) = ws := by
  induction ws with
  | nil => rfl
  | cons w ws ih => rw [unpack, pack, append_byteLane, ih]

/-- The recursion of `pack`: four bytes at a time. -/
theorem unpack_pack : ∀ bs : List Byte, bs.length % 4 = 0 → unpack (pack bs) = bs
  | [], _ => rfl
  | [_], h => by simp at h
  | [_, _], h => by simp at h
  | [_, _, _], h => by simp at h
  | b0 :: b1 :: b2 :: b3 :: rest, h => by
    have ih := unpack_pack rest (by simp only [List.length_cons] at h; omega)
    obtain ⟨h0, h1, h2, h3⟩ := byteLane_append b0 b1 b2 b3
    rw [pack, unpack, h0, h1, h2, h3, ih]

theorem unpack_getElem? (ws : List Word) (b : Nat) (hb : b < 4 * ws.length) :
    (unpack ws)[b]? = some (byteLane (ws.getD (b / 4) 0) (b % 4)) := by
  induction ws generalizing b with
  | nil => simp at hb
  | cons w ws ih =>
    rcases b with _ | _ | _ | _ | b
    · rfl
    · rfl
    · rfl
    · rfl
    · have hdiv : (b + 4) / 4 = b / 4 + 1 := by omega
      have hmod : (b + 4) % 4 = b % 4 := by omega
      rw [List.length_cons] at hb
      rw [hdiv, hmod, List.getD_cons_succ, ← ih b (by omega)]
      rfl

/-- Settles O31, by induction over the words and by the recursion of `pack`. -/
theorem packingIsLittleEndian : Obligations.PackingIsLittleEndian :=
  ⟨unpack_pack, fun ws => ⟨pack_unpack ws, unpack_getElem? ws⟩⟩

/-! # Transactions of the bus

What a read or a write does, by what it reaches. -/

/-- The legal transactions: aligned, and a word below the KEY window or any size in a window (R51, R54). -/
theorem busTarget_isSome_iff {p : Params} {a : BitVec 32} {n : Size} :
    (busTarget p a n).isSome = true ↔
      a.toNat % n.bytes = 0 ∧
      ((a.toNat < 0x010 ∧ n = .word) ∨ (0x010 ≤ a.toNat ∧ a.toNat < 0x020) ∨
        (0x1000 ≤ a.toNat ∧ a.toNat < 0x1000 + 4 * p.nmax)) := by
  rw [Option.isSome_iff_exists]
  constructor
  · rintro ⟨g, hg⟩
    refine ⟨(busTarget_eq_some.1 hg).1, ?_⟩
    cases g with
    | ctrl => obtain ⟨rfl, hn⟩ := busTarget_ctrl_iff.1 hg; exact .inl ⟨by decide, hn⟩
    | status => obtain ⟨ha, hn⟩ := busTarget_status_iff.1 hg; exact .inl ⟨by omega, hn⟩
    | len => obtain ⟨ha, hn⟩ := busTarget_len_iff.1 hg; exact .inl ⟨by omega, hn⟩
    | cap => obtain ⟨ha, hn⟩ := busTarget_cap_iff.1 hg; exact .inl ⟨by omega, hn⟩
    | key j => obtain ⟨-, hlo, hhi, -⟩ := busTarget_key_iff.1 hg; exact .inr (.inl ⟨hlo, hhi⟩)
    | data b => obtain ⟨-, hlo, hhi, -⟩ := busTarget_data_iff.1 hg; exact .inr (.inr ⟨hlo, hhi⟩)
  · rintro ⟨ha, ⟨hreg, rfl⟩ | ⟨hlo, hhi⟩ | ⟨hlo, hhi⟩⟩
    · have hal : a.toNat % 4 = 0 := ha
      have hfour : a.toNat = 0 ∨ a.toNat = 0x004 ∨ a.toNat = 0x008 ∨ a.toNat = 0x00C := by omega
      rcases hfour with h | h | h | h
      · exact ⟨_, busTarget_ctrl_iff.2 ⟨BitVec.eq_of_toNat_eq h, rfl⟩⟩
      · exact ⟨_, busTarget_status_iff.2 ⟨h, rfl⟩⟩
      · exact ⟨_, busTarget_len_iff.2 ⟨h, rfl⟩⟩
      · exact ⟨_, busTarget_cap_iff.2 ⟨h, rfl⟩⟩
    · exact ⟨_, busTarget_key_iff.2 ⟨ha, hlo, hhi, rfl⟩⟩
    · exact ⟨_, busTarget_data_iff.2 ⟨ha, hlo, hhi, rfl⟩⟩

section Transactions
variable {s : State} {a : BitVec 32} {n : Size}

theorem memRead_illegal (h : busTarget s.params a n = none) : memRead a n s = (.busError, s) := by
  simp only [memRead, h]

theorem memRead_data {b : Nat} (h : busTarget s.params a n = some (.data b)) (hb : s.busy = false) :
    memRead a n s = (.data (gather s.blockByte (dataBase + b) n.bytes), s) := by
  simp [memRead, h, hb]

/-- A legal read is answered with data (R55, R60). -/
theorem memRead_legal_answer (h : busTarget s.params a n ≠ none) : ∃ v, (memRead a n s).1 = .data v := by
  unfold memRead
  split
  case h_1 e => exact absurd e h
  case h_7 => split <;> exact ⟨_, rfl⟩
  all_goals exact ⟨_, rfl⟩

theorem memWrite_illegal (v : Word) (h : busTarget s.params a n = none) :
    memWrite a n v s = .next (s.respond .busError) := by
  simp only [memWrite, h]

/-- A legal write while BUSY that does not reach CTRL is dropped (R196). -/
theorem memWrite_dropped {g : Region} (v : Word) (h : busTarget s.params a n = some g) (hc : g ≠ .ctrl)
    (hb : s.busy = true) : memWrite a n v s = .next (s.dropWrite.respond .written) := by
  rcases memWrite_cases a n v s with ⟨hg, -⟩ | ⟨hg, -⟩ | ⟨g', -, -, -, e⟩ | ⟨g', -, -, hb', -⟩
  · rw [h] at hg; cases hg
  · rw [h] at hg; exact absurd (Option.some.inj hg) hc
  · exact e
  · rw [hb] at hb'; cases hb'

/-- A legal write while not BUSY that does not reach CTRL stores (R56). -/
theorem memWrite_store {g : Region} (v : Word) (h : busTarget s.params a n = some g) (hc : g ≠ .ctrl)
    (hb : s.busy = false) : memWrite a n v s = .next ((storeRegion g n v s).respond .written) := by
  rcases memWrite_cases a n v s with ⟨hg, -⟩ | ⟨hg, -⟩ | ⟨g', -, -, hb', -⟩ | ⟨g', hg, -, -, e⟩
  · rw [h] at hg; cases hg
  · rw [h] at hg; exact absurd (Option.some.inj hg) hc
  · rw [hb] at hb'; cases hb'
  · rw [h] at hg; cases hg; exact e

/-- A legal write is answered as written (R60). -/
theorem memWrite_legal_answer (v : Word) (h : busTarget s.params a n ≠ none) :
    ∃ t, memWrite a n v s = .next t ∧ t.answer = some .written := by
  rcases memWrite_cases a n v s with ⟨hg, -⟩ | ⟨-, -, -, e⟩ | ⟨g, -, -, -, e⟩ | ⟨g, -, -, -, e⟩
  · exact absurd hg h
  · obtain ⟨t, ht⟩ := command_answers_next v s
    exact ⟨t.respond .written, by rw [e, ht]; rfl, rfl⟩
  · exact ⟨_, e, rfl⟩
  · exact ⟨_, e, rfl⟩

theorem step_of_write {v : Word} (h : s.hostIssues (.write a n v)) : step s = memWrite a n v s.issued := step_of_host h

end Transactions

/-- Settles O32: the legal addresses by region, and one lemma for each answer. -/
theorem illegalTransactionsGetBusError : Obligations.IllegalTransactionsGetBusError := by
  intro s a n v
  refine ⟨busTarget_isSome_iff, fun h => ⟨fun hop => ?_, fun hop => ?_, rfl⟩, fun h => ⟨fun hop => ?_, fun hop => ?_⟩⟩
  · rw [step_of_read hop, memRead_illegal (s := s.issued) h]; rfl
  · rw [step_of_write hop, memWrite_illegal (s := s.issued) v h]; rfl
  · obtain ⟨w, hw⟩ := memRead_legal_answer (s := s.issued) h
    exact ⟨_, w, step_of_read hop, congrArg some hw⟩
  · rw [step_of_write hop]
    exact memWrite_legal_answer (s := s.issued) v h

/-- Settles O38: a read changes at most the model's count of draws. -/
theorem readsHaveNoSideEffects : Obligations.ReadsHaveNoSideEffects := by
  intro s a n h
  obtain ⟨d, hd⟩ := memRead_state a n s.issued
  exact ⟨d, (memRead a n s.issued).1, by rw [step_of_read h, hd]; rfl⟩

/-- Settles O42: STATUS and CAP are regions that a store leaves as they are. -/
theorem readOnlyRegistersIgnoreWrites : Obligations.ReadOnlyRegistersIgnoreWrites := by
  intro s v a ha
  have target : ∃ g, busTarget s.issued.params a .word = some g ∧ (g = .status ∨ g = .cap) := by
    rcases ha with rfl | rfl
    · exact ⟨_, busTarget_status_iff.2 ⟨rfl, rfl⟩, .inl rfl⟩
    · exact ⟨_, busTarget_cap_iff.2 ⟨rfl, rfl⟩, .inr rfl⟩
  obtain ⟨g, hg, hro⟩ := target
  have notCtrl : g ≠ .ctrl := by rcases hro with rfl | rfl <;> decide
  refine ⟨fun hop hb => ?_, fun hop hb => ?_, (registerReads s).1⟩
  · rw [step_of_write hop, memWrite_store v hg notCtrl hb]
    rcases hro with rfl | rfl <;> rfl
  · rw [step_of_write hop, memWrite_dropped v hg notCtrl hb]
    rfl

/-! # Reads of the DATA window -/

/-- Byte `t` of a field of `m` bytes at byte `l` of a word, zero-extended: byte `l + t` of the word, and 0 above the field. -/
theorem byteLane_setWidth_extractLsb' (w : Word) (l m t : Nat) (ht : t < 4) :
    byteLane (BitVec.setWidth 32 (w.extractLsb' (8 * l) (8 * m))) t = if t < m then byteLane w (l + t) else 0 := by
  apply BitVec.eq_of_getLsbD_eq
  intro i hi
  have hword : 8 * t + i < 32 := by omega
  have hpos : 8 * l + (8 * t + i) = 8 * (l + t) + i := by omega
  simp only [byteLane, BitVec.getLsbD_extractLsb', BitVec.getLsbD_setWidth, hi, hword, decide_true, Bool.true_and, hpos]
  split
  · have hfield : 8 * t + i < 8 * m := by omega
    simp [hi, hfield]
  · have hfield : ¬ 8 * t + i < 8 * m := by omega
    simp [hfield]

/-- Byte `t` of V[i] (R22, R52). -/
theorem State.byteLane_blockWord (s : State) (i : Nat) {t : Nat} (ht : t < 4) :
    byteLane (s.blockWord i) t = s.blockByte (wordAddr i + t) :=
  byteLane_gather _ _ 4 t le_rfl ht

/-- An aligned access stays in the word that holds its first byte (R54). -/
theorem aligned_access_in_word {a : Nat} {n : Size} (ha : a % n.bytes = 0) : a % 4 + n.bytes ≤ 4 := by
  cases n <;> simp only [Size.bytes] at * <;> omega

theorem Size.bytes_le_four (n : Size) : n.bytes ≤ 4 := by cases n <;> decide

/-- The block bytes of an aligned access are a field of the block word they lie in (R55, R57). -/
theorem State.gather_blockByte_eq_field (s : State) {a : Nat} {n : Size} (hlo : 0x1000 ≤ a) (ha : a % n.bytes = 0) :
    gather s.blockByte a n.bytes =
      BitVec.setWidth 32 ((s.blockWord ((a - 0x1000) / 4)).extractLsb' (8 * (a % 4)) (8 * n.bytes)) := by
  have hin := aligned_access_in_word ha
  apply word_eq_of_byteLane
  intro t ht
  rw [byteLane_setWidth_extractLsb' _ _ _ t ht]
  split
  case isTrue htn =>
    have haddr : wordAddr ((a - 0x1000) / 4) + (a % 4 + t) = a + t := by unfold wordAddr dataBase; omega
    rw [byteLane_gather _ _ _ t n.bytes_le_four htn, State.byteLane_blockWord _ _ (by omega), haddr]
  case isFalse htn => exact byteLane_gather_high _ _ _ t n.bytes_le_four (by omega)

/-- Settles O36: the answer is the gathered block bytes. -/
theorem dataWindowReads : Obligations.DataWindowReads := by
  intro s a n hb hlo hhi hal h
  have target : busTarget s.issued.params a n = some (.data (a.toNat - 0x1000)) :=
    busTarget_data_iff.2 ⟨hal, hlo, hhi, rfl⟩
  have haddr : dataBase + (a.toNat - 0x1000) = a.toNat := by unfold dataBase; omega
  have hread := memRead_data target hb
  rw [haddr] at hread
  exact ⟨gather s.blockByte a.toNat n.bytes, step_of_quiet_read h hread,
    fun t ht => byteLane_gather _ _ _ t n.bytes_le_four ht, s.gather_blockByte_eq_field hlo hal⟩

/-! # Writes of the KEY window -/

theorem keyByte_setKeyByte (k : Vector Word 4) {i j : Nat} (b : Byte) (hi : i < 16) :
    keyByte (setKeyByte k i b) j = if j = i then b else keyByte k j := by
  unfold keyByte setKeyByte
  rw [Vector.getElem?_setIfInBounds]
  by_cases hw : i / 4 = j / 4
  · have hlane : (j % 4 = i % 4) ↔ j = i := by omega
    rw [if_pos hw, if_pos (by omega), Option.getD_some, byteLane_setByteLane _ _ _ _ (by omega) (by omega), hw]
    simp only [hlane]
  · rw [if_neg hw, if_neg (by omega)]

/-- The key after a write of `n` bytes at key byte `i`, byte by byte (R56, R57). -/
theorem keyByte_setKeyBytes (k : Vector Word 4) {i j : Nat} (v : Word) (n : Nat) (hi : i + n ≤ 16) :
    keyByte (setKeyBytes k i v n) j = if i ≤ j ∧ j < i + n then byteLane v (j - i) else keyByte k j := by
  induction n with
  | zero => rw [if_neg (by omega)]; rfl
  | succ n ih =>
    rw [setKeyBytes, keyByte_setKeyByte _ _ (by omega), ih (by omega)]
    by_cases hlast : j = i + n
    · rw [if_pos hlast, if_pos (by omega), show j - i = n by omega]
    · have hrange : (i ≤ j ∧ j < i + (n + 1)) ↔ (i ≤ j ∧ j < i + n) := by omega
      simp only [if_neg hlast, hrange]

/-- An aligned access inside the KEY window ends inside it. -/
theorem key_access_end {a : Nat} {n : Size} (ha : a % n.bytes = 0) (h : a < 0x020) : a + n.bytes ≤ 0x020 := by
  cases n <;> simp only [Size.bytes] at * <;> omega

/-- Settles O40: the store's key, byte by byte. -/
theorem keyWritesReplaceTheirBytes : Obligations.KeyWritesReplaceTheirBytes := by
  intro s a n v hb hlo hhi hal h
  have target : busTarget s.issued.params a n = some (.key (a.toNat - 0x010)) :=
    busTarget_key_iff.2 ⟨hal, hlo, hhi, rfl⟩
  have hend := key_access_end hal hhi
  refine ⟨setKeyBytes s.key (a.toNat - 0x010) v n.bytes, ?_, fun j _ => ?_⟩
  · rw [step_of_write h, memWrite_store v target (by simp) hb]; rfl
  · have hrange : (a.toNat - 0x010 ≤ j ∧ j < a.toNat - 0x010 + n.bytes) ↔
        (a.toNat ≤ 0x010 + j ∧ 0x010 + j < a.toNat + n.bytes) := by omega
    have hlane : j - (a.toNat - 0x010) = 0x010 + j - a.toNat := by omega
    rw [keyByte_setKeyBytes _ _ _ (by omega), hlane]
    simp only [hrange]

/-! # Writes of the DATA window -/

/-- Settles O41: the store's buffer, byte by byte. -/
theorem dataWritesReplaceTheirBytes : Obligations.DataWritesReplaceTheirBytes := by
  intro s a n v hb hlo hhi hal h
  have target : busTarget s.issued.params a n = some (.data (a.toNat - 0x1000)) :=
    busTarget_data_iff.2 ⟨hal, hlo, hhi, rfl⟩
  have haddr : dataBase + (a.toNat - 0x1000) = a.toNat := by unfold dataBase; omega
  refine ⟨Memory.store a.toNat v n.bytes s.mem, ?_, fun b => ?_⟩
  · rw [step_of_write h, memWrite_store v target (by simp) hb, storeRegion, haddr]; rfl
  · simp only [State.blockByte, State.unlistedByte, Memory.get_store, State.issued_epoch]
    split <;> rfl

/-! # Writing the same value twice (R59) -/

theorem Memory.store_store {m : List Host.Cell} (hm : Memory.wf m = true) (a : Nat) (v : Word) (n : Nat) :
    Memory.store a v n (Memory.store a v n m) = Memory.store a v n m := by
  refine Memory.eq_of_get_eq (Memory.wf_store (Memory.wf_store hm)) (Memory.wf_store hm) fun b => ?_
  rw [Memory.get_store, Memory.get_store]
  split <;> rfl

/-- The sixteen key bytes determine the key (R21). -/
theorem key_eq_of_keyByte {k l : Vector Word 4} (h : ∀ j, j < 16 → keyByte k j = keyByte l j) : k = l := by
  refine Vector.ext fun i hi => ?_
  rw [← gather_keyByte k i hi, ← gather_keyByte l i hi]
  exact gather_congr (n := 4) fun t ht => h (4 * i + t) (by omega)

theorem setKeyBytes_setKeyBytes (k : Vector Word 4) {i n : Nat} (v : Word) (hi : i + n ≤ 16) :
    setKeyBytes (setKeyBytes k i v n) i v n = setKeyBytes k i v n := by
  refine key_eq_of_keyByte fun j _ => ?_
  rw [keyByte_setKeyBytes _ v n hi, keyByte_setKeyBytes _ v n hi]
  split <;> rfl

section StoreRegion
variable (g : Region) (n : Size) (v : Word) (s : State)

@[simp] theorem storeRegion_params : (storeRegion g n v s).params = s.params := by cases g <;> rfl
@[simp] theorem storeRegion_busy : (storeRegion g n v s).busy = s.busy := by cases g <;> rfl

theorem storeRegion_respond (ans : Answer) : storeRegion g n v (s.respond ans) = (storeRegion g n v s).respond ans := by
  cases g <;> rfl

end StoreRegion

theorem State.Inv.storeRegion_storeRegion {s : State} (hi : s.Inv) {a : BitVec 32} {n : Size} {g : Region} (v : Word)
    (hg : busTarget s.params a n = some g) :
    Machine.storeRegion g n v (Machine.storeRegion g n v s) = Machine.storeRegion g n v s := by
  cases g with
  | ctrl | status | cap | len => rfl
  | key j =>
    obtain ⟨hal, hlo, hhi, hoff⟩ := busTarget_key_iff.1 hg
    have hend := key_access_end hal hhi
    simp only [Machine.storeRegion, setKeyBytes_setKeyBytes s.key v (show j + n.bytes ≤ 16 by omega)]
  | data b => simp only [Machine.storeRegion, Memory.store_store hi.mem_wf]

/-- Settles O44: a second write has the outcome of the first, and a store of the same bytes changes nothing more. -/
theorem registerWritesAreIdempotent : Obligations.RegisterWritesAreIdempotent := by
  intro s t a n v hi ha h
  rcases memWrite_cases a n v s with ⟨hg, e⟩ | ⟨-, ha', -⟩ | ⟨g, hg, hc, hb, e⟩ | ⟨g, hg, hc, hb, e⟩
  · rw [e] at h; cases h
    exact memWrite_illegal v hg
  · exact absurd ha' ha
  · rw [e] at h; cases h
    exact memWrite_dropped v hg hc hb
  · rw [e] at h; cases h
    rw [memWrite_store v (by simpa using hg) hc (by simpa using hb), storeRegion_respond,
      hi.storeRegion_storeRegion v hg]
    rfl

end Sys2Proof.Machine

namespace Sys2Proof

/-! # Command words

`decode` is the inverse of `encode`; the classes of R81 and the rows of R83 follow from that and from the five classes of
`decode_cases`. -/

/-- Bit 31 put before the ignored bits is the field SRST (R80). -/
theorem srstField_append (ignored : BitVec 31) : srstField (1#1 ++ ignored) = 1 :=
  BitVec.extractLsb'_append_eq_of_le (Nat.le_refl 31)

/-- A word with bit 31 set is that bit put before the other 31. -/
theorem append_of_getLsbD_31 {w : Word} (h : w.getLsbD 31 = true) : 1#1 ++ w.extractLsb' 0 31 = w :=
  calc 1#1 ++ w.extractLsb' 0 31
      = srstField w ++ w.extractLsb' 0 31 := by rw [(srstField_eq_one_iff w).2 h]; rfl
    _ = w.extractLsb' 0 32 := BitVec.extractLsb'_append_extractLsb'_eq_extractLsb' rfl
    _ = w := BitVec.extractLsb'_eq_self

theorem decode_encode (i : Instr) : decode (encode i) = .command i := by
  cases i with
  | nop | encrypt | decrypt => decide
  | srst ignored => rw [encode, decode, if_pos (srstField_append ignored), BitVec.extractLsb'_append_eq_right]

theorem encode_of_decode {w : Word} {i : Instr} (h : decode w = .command i) : encode i = w := by
  rcases decode_cases w with ⟨hbit, e⟩ | ⟨rfl, e⟩ | ⟨rfl, e⟩ | ⟨rfl, e⟩ | ⟨-, -, why, e⟩ <;> rw [e] at h <;> cases h
  · exact append_of_getLsbD_31 hbit
  · rfl
  · rfl
  · rfl

theorem decode_eq_command_iff {w : Word} {i : Instr} : decode w = .command i ↔ encode i = w :=
  ⟨encode_of_decode, fun h => h ▸ decode_encode i⟩

theorem Instr.wf_eq_true (i : Instr) : i.wf = true := by cases i <;> rfl

/-- Settles O1: every command is well formed, and `decode` and `encode` are inverse to each other. -/
theorem decodeExactlyInvertsEncode : Obligations.DecodeExactlyInvertsEncode := by
  intro w i
  rw [decode_eq_command_iff, i.wf_eq_true]
  simp

/-! ### The classes of words (R81) -/

theorem exists_decode_srst_iff (w : Word) : (∃ ignored, decode w = .command (.srst ignored)) ↔ w.getLsbD 31 = true := by
  simp only [decode_eq_command_iff]
  constructor
  · rintro ⟨ignored, rfl⟩
    exact (srstField_eq_one_iff _).1 (srstField_append ignored)
  · exact fun h => ⟨_, append_of_getLsbD_31 h⟩

theorem exists_decode_illegal_iff (w : Word) : (∃ why, decode w = .illegal why) ↔ 3 ≤ w.toNat ∧ w.toNat < 2 ^ 31 := by
  rcases decode_cases w with ⟨hbit, e⟩ | ⟨rfl, e⟩ | ⟨rfl, e⟩ | ⟨rfl, e⟩ | ⟨hlo, hhi, why, e⟩ <;> rw [e]
  · have := (getLsbD_31_iff w).1 hbit
    simp; omega
  · simp
  · simp
  · simp
  · exact ⟨fun _ => ⟨hlo, hhi⟩, fun _ => ⟨why, rfl⟩⟩

/-- The words 3 to 2^31 − 1 by their fields SRST, RSVD and OP (R81). -/
theorem illegal_range_iff_fields (w : Word) :
    3 ≤ w.toNat ∧ w.toNat < 2 ^ 31 ↔ w.getLsbD 31 = false ∧ (w.extractLsb' 2 29 ≠ 0 ∨ w.extractLsb' 0 2 = 3) := by
  have srst : w.getLsbD 31 = false ↔ w.toNat < 2 ^ 31 := by
    rw [← Bool.not_eq_true, getLsbD_31_iff, Nat.not_le]
  have rsvd : w.extractLsb' 2 29 = 0 ↔ w.toNat / 4 % 2 ^ 29 = 0 := rsvdField_eq_zero_iff w
  have op : w.extractLsb' 0 2 = 3 ↔ w.toNat % 4 = 3 := opField_eq_iff w 3
  rw [srst, Ne, rsvd, op]
  omega

/-- Settles O2: the words of the three fixed commands are their encodings, and the other two classes go by the word's value. -/
theorem everyWordHasItsCommandClass : Obligations.EveryWordHasItsCommandClass := by
  intro w
  have fixed (i : Instr) : decode w = .command i ↔ w = encode i := decode_eq_command_iff.trans eq_comm
  refine ⟨fixed .nop, fixed .encrypt, fixed .decrypt, exists_decode_srst_iff w, exists_decode_illegal_iff w, ?_⟩
  rw [exists_decode_illegal_iff, illegal_range_iff_fields]

/-- Settles O4: five of the words are the encodings of their commands, and the two ILLEGAL ones are evaluated. -/
theorem writtenOutWordsDecode : Obligations.WrittenOutWordsDecode :=
  ⟨decode_encode .nop, decode_encode .encrypt, decode_encode .decrypt, decode_encode (.srst 0), decode_encode (.srst 3),
    by decide, by decide⟩

/-! ### The rows of the opcode map (R83) -/

theorem encode_matches_row (i : Instr) : encode i &&& rowMask i = rowMatch i := by
  cases i with
  | nop => exact Laws.EncodesInItsRow.nop
  | encrypt => exact Laws.EncodesInItsRow.encrypt
  | decrypt => exact Laws.EncodesInItsRow.decrypt
  | srst ignored => exact Laws.EncodesInItsRow.srst ignored

/-- A word in the row of SRST has bit 31 set. -/
theorem getLsbD_31_of_srst_row {w : Word} (h : w &&& 0x80000000#32 = 0x80000000#32) : w.getLsbD 31 = true := by
  have hbit := congrArg (·.getLsbD 31) h
  simpa using hbit

/-- A word in a row decodes to a command of that row. -/
theorem decode_of_matches_row {w : Word} {i : Instr} (h : w &&& rowMask i = rowMatch i) :
    ∃ j, decode w = .command j ∧ rowMatch j = rowMatch i ∧ rowMask j = rowMask i := by
  have full (hmask : rowMask i = BitVec.allOnes 32) (hmatch : rowMatch i = encode i) : decode w = .command i := by
    rw [hmask, BitVec.and_allOnes, hmatch] at h
    exact decode_eq_command_iff.2 h.symm
  cases i with
  | nop | encrypt | decrypt => exact ⟨_, full rfl rfl, rfl, rfl⟩
  | srst ignored =>
    obtain ⟨ignored', e⟩ := (exists_decode_srst_iff w).2 (getLsbD_31_of_srst_row h)
    exact ⟨_, e, rfl, rfl⟩

/-- Settles O3: a word decodes to one command at most, so it lies in one row at most. -/
theorem opcodeRowsSelectTheirCommands : Obligations.OpcodeRowsSelectTheirCommands := by
  intro w i
  refine ⟨⟨decode_of_matches_row, ?_⟩, fun j hi hj => ?_, ?_⟩
  · rintro ⟨j, hdec, hmatch, hmask⟩
    rw [← encode_of_decode hdec, ← hmask, ← hmatch]
    exact encode_matches_row j
  · obtain ⟨k, hk, hki, -⟩ := decode_of_matches_row hi
    obtain ⟨l, hl, hlj, -⟩ := decode_of_matches_row hj
    obtain rfl : k = l := by simpa [hk] using hl
    exact hki.symm.trans hlj
  · exact ⟨by rintro rfl; exact ⟨rfl, rfl⟩, by rintro rfl; exact ⟨rfl, rfl⟩, by rintro rfl; exact ⟨rfl, rfl⟩,
      by rintro ignored rfl; exact ⟨rfl, rfl⟩⟩

end Sys2Proof

namespace Sys2Proof.Machine

/-! # Command words and WAIT on the bus -/

/-- A CTRL write is `Command(w)` of R140, answered as written. -/
theorem step_of_ctrl_write {s : State} {w : Word} (h : s.hostIssues (.write 0 .word w)) :
    step s = mapNext (State.respond .written) (command w s.issued) := by
  have target : busTarget s.issued.params 0 .word = some .ctrl := busTarget_ctrl_iff.2 ⟨rfl, rfl⟩
  rw [step_of_write h]
  simp only [memWrite, target]

theorem command_of_decode {w : Word} {i : Instr} (s : State) (h : decode w = .command i) : command w s = exec i s := by
  simp only [command, h]

theorem command_of_illegal {w : Word} (s : State) (h : ∃ why, decode w = .illegal why) :
    command w s = .next (s.acceptInIdle (State.raiseFault .illegalCmd)) := by
  obtain ⟨why, e⟩ := h
  simp only [command, e, illegalCommand]

/-- Settles O17: the write reaches `command`, which runs what the word decodes to. -/
theorem stepRunsTheWrittenCommand : Obligations.StepRunsTheWrittenCommand := by
  intro s w i h hdec
  rw [step_of_ctrl_write h, command_of_decode _ hdec]

/-- Settles O15: the fields say that the word is ILLEGAL, and the phase says what becomes of it. -/
theorem illegalWordsByPhase : Obligations.IllegalWordsByPhase := by
  intro s w hbit hfields h
  have illegal : ∃ why, decode w = .illegal why :=
    (exists_decode_illegal_iff w).2 ((illegal_range_iff_fields w).2 ⟨hbit, hfields⟩)
  rw [step_of_ctrl_write h, command_of_illegal _ illegal]
  refine ⟨fun hp => ?_, fun hb => ?_, fun hp => ?_⟩
  · rw [State.acceptInIdle_idle _ (s := s.issued) hp]; rfl
  · rw [State.acceptInIdle_busy _ (s := s.issued) hb]; rfl
  · rw [State.acceptInIdle_faulted _ (s := s.issued) hp]; rfl

/-- The condition of WAIT is BUSY = 0 (R25, R85). -/
theorem State.status_and_one_eq_zero_iff (s : State) : s.status &&& 1 = 0 ↔ s.busy = false := by
  have hbusy : s.status.getLsbD 0 = s.busy := s.status_getLsbD 0
  have hmask : s.status &&& 1 = BitVec.setWidth 32 (BitVec.ofBool (s.status.getLsbD 0)) :=
    BitVec.and_one_eq_setWidth_ofBool_getLsbD
  rw [hmask, hbusy]
  cases s.busy <;> decide

/-- One read of WAIT: answered with STATUS, and put back while BUSY. -/
theorem hostOp_wait (s : State) :
    hostOp hostWait s =
      if s.busy = false then .next (s.respond (.data s.status))
      else .next { s.respond (.data s.status) with host := hostWait :: s.host } := by
  have read : memRead 0x004 .word s = (.data s.status, s) := memRead_status (busTarget_status_iff.2 ⟨rfl, rfl⟩)
  simp only [hostWait, hostOp, read, Answer.value, ← s.status_and_one_eq_zero_iff]
  rfl

/-- Settles O45: a WAIT that is put back gives the host's list before its turn. -/
theorem waitEndsWhenNotBusy : Obligations.WaitEndsWhenNotBusy := by
  intro s h
  rw [step_of_host h, hostOp_wait, State.issued_busy]
  refine ⟨fun hb => ?_, fun hb => ?_⟩
  · rw [if_pos hb]; rfl
  · rw [if_neg (by simp [hb]), ← State.issued_eq h]; rfl

end Sys2Proof.Machine

namespace Sys2Proof.Machine

/-! # Constants of the transform -/

/-- Settles O28: from 53 words on 52 div N is 0; below that the table is read off. -/
theorem roundsFollowTheTable : Obligations.RoundsFollowTheTable := by
  intro n hn
  refine ⟨rounds_ge n, rfl, ?_⟩
  rcases Nat.lt_or_ge n 53 with small | large
  · interval_cases n <;> rfl
  · have none_left : 52 / n = 0 := Nat.div_eq_of_lt (by omega)
    rw [rounds, none_left]
    simp (disch := omega) only [if_neg]

/-- Settles O29, bit by bit: the shift by 2 brings bits 3:2 of the sum to bits 1:0, which the mask keeps. -/
theorem keyIndexReadsFourBits : Obligations.KeyIndexReadsFourBits := by
  intro r sum
  apply BitVec.eq_of_getLsbD_eq
  intro i hi
  have mask : (3 : Word).getLsbD i = true := by interval_cases i <;> rfl
  simp only [keyIndex, BitVec.getLsbD_setWidth, BitVec.getLsbD_and, BitVec.getLsbD_xor, BitVec.getLsbD_ushiftRight,
    BitVec.getLsbD_extractLsb', hi, mask, Nat.zero_add, decide_true, Bool.true_and, Bool.and_true]

/-- Settles O30: with zeros only the sum is left; with ones the mix is a constant and the key word cancels z. -/
theorem mixingFunctionCorners : Obligations.MixingFunctionCorners := by
  intro sum
  have mix_of_ones : ((0xffffffff : Word) >>> 5 ^^^ (0xffffffff : Word) <<< 2) +
      ((0xffffffff : Word) >>> 3 ^^^ (0xffffffff : Word) <<< 4) = 0xd8000012 := by decide
  constructor
  · simp [mx]
  · simp only [mx, mix_of_ones, BitVec.xor_self, BitVec.add_zero]

/-! # The transform without its carry

The neighbour that a transform carries from round to round is always a word of the block: z of Encrypt at round r is
V[(r + N − 1) mod N] and y of Decrypt is V[(r + 1) mod N] (R111, R117). Without the carry a round adds to, or takes from, one
word what MX makes of its two neighbours. -/

/-- What a round at word r adds or takes away: MX of the word's two neighbours in the block and of its key word. -/
def roundTerm (k : Vector Word 4) (sum : Word) (ws : List Word) (r : Nat) : Word :=
  mx sum (ws.getD ((r + 1) % ws.length) 0) (ws.getD ((r + ws.length - 1) % ws.length) 0)
    (keyWord k (keyIndex (BitVec.ofNat 32 r) sum))

/-- Encrypt's round at word r on the block's words alone. -/
def encWord (k : Vector Word 4) (sum : Word) (ws : List Word) (r : Nat) : List Word :=
  ws.set r (ws.getD r 0 + roundTerm k sum ws r)

/-- Decrypt's round at word r on the block's words alone. -/
def decWord (k : Vector Word 4) (sum : Word) (ws : List Word) (r : Nat) : List Word :=
  ws.set r (ws.getD r 0 - roundTerm k sum ws r)

/-- The rounds of one cycle of Encrypt, on the words alone. -/
def encSweep (k : Vector Word 4) (sum : Word) (ws : List Word) : List Word :=
  (List.range ws.length).foldl (encWord k sum) ws

/-- The rounds of one cycle of Decrypt, on the words alone. -/
def decSweep (k : Vector Word 4) (sum : Word) (ws : List Word) : List Word :=
  (List.range ws.length).reverse.foldl (decWord k sum) ws

/-- One cycle of Encrypt on the sum and the words. -/
def encBareCycle (k : Vector Word 4) (x : Word × List Word) : Word × List Word :=
  (x.1 + delta, encSweep k (x.1 + delta) x.2)

/-- One cycle of Decrypt on the sum and the words. -/
def decBareCycle (k : Vector Word 4) (x : Word × List Word) : Word × List Word :=
  (x.1 - delta, decSweep k x.1 x.2)

/-- The pass whose carry is the word at place i, counted around the block. -/
def passAt (i : Nat) (x : Word × List Word) : Pass := { sum := x.1, words := x.2, carry := x.2.getD (i % x.2.length) 0 }

/-- Where Encrypt stands between two cycles: it carries the last word. -/
def encPassOf (x : Word × List Word) : Pass := passAt (x.2.length - 1) x

/-- Where Decrypt stands between two cycles: it carries the first word. -/
def decPassOf (x : Word × List Word) : Pass := passAt 0 x

@[simp] theorem encWord_length (k : Vector Word 4) (sum : Word) (ws : List Word) (r : Nat) :
    (encWord k sum ws r).length = ws.length := List.length_set

@[simp] theorem decWord_length (k : Vector Word 4) (sum : Word) (ws : List Word) (r : Nat) :
    (decWord k sum ws r).length = ws.length := List.length_set

theorem foldl_length {f : List Word → Nat → List Word} (h : ∀ ws r, (f ws r).length = ws.length) (l : List Nat)
    (ws : List Word) : (l.foldl f ws).length = ws.length := by
  induction l generalizing ws with
  | nil => rfl
  | cons r l ih => rw [List.foldl_cons, ih, h]

@[simp] theorem encSweep_length (k : Vector Word 4) (sum : Word) (ws : List Word) :
    (encSweep k sum ws).length = ws.length := foldl_length (encWord_length k sum) _ ws

@[simp] theorem decSweep_length (k : Vector Word 4) (sum : Word) (ws : List Word) :
    (decSweep k sum ws).length = ws.length := foldl_length (decWord_length k sum) _ ws

/-! ### The carry is a word of the block -/

theorem getD_set_self {ws : List Word} {r : Nat} (h : r < ws.length) (x : Word) : (ws.set r x).getD r 0 = x := by
  simp [List.getD_eq_getElem?_getD, h]

/-- The word a round has written is what it carries to the next round. -/
theorem passAt_set {ws : List Word} {r i : Nat} (hr : r < ws.length) (hi : i % ws.length = r) (sum x : Word) :
    passAt i (sum, ws.set r x) = { sum := sum, words := ws.set r x, carry := x } := by
  simp only [passAt, List.length_set, hi, getD_set_self hr]

/-- R111: a round of Encrypt takes the left neighbour of r to that of r + 1. -/
theorem encRound_passAt (k : Vector Word 4) (sum : Word) {ws : List Word} {r : Nat} (hr : r < ws.length) :
    encRound k (passAt (r + ws.length - 1) (sum, ws)) r = passAt (r + 1 + ws.length - 1) (sum, encWord k sum ws r) := by
  have here : (r + 1 + ws.length - 1) % ws.length = r := by
    rw [show r + 1 + ws.length - 1 = r + ws.length by omega, Nat.add_mod_right, Nat.mod_eq_of_lt hr]
  exact (passAt_set hr here _ _).symm

/-- R117: a round of Decrypt takes the right neighbour of r to that of r − 1. -/
theorem decRound_passAt (k : Vector Word 4) (sum : Word) {ws : List Word} {r : Nat} (hr : r < ws.length) :
    decRound k (passAt (r + 1) (sum, ws)) r = passAt r (sum, decWord k sum ws r) :=
  (passAt_set hr (Nat.mod_eq_of_lt hr) _ _).symm

/-- Encrypt's rounds 0 … m − 1, by induction on m. -/
theorem encRounds_passAt (k : Vector Word 4) (sum : Word) (ws : List Word) {m : Nat} (hm : m ≤ ws.length) :
    (List.range m).foldl (encRound k) (passAt (ws.length - 1) (sum, ws)) =
      passAt (m + ws.length - 1) (sum, (List.range m).foldl (encWord k sum) ws) := by
  induction m with
  | zero => simp
  | succ m ih =>
    have len := foldl_length (encWord_length k sum) (List.range m) ws
    have round := encRound_passAt k sum (ws := (List.range m).foldl (encWord k sum) ws) (r := m) (by omega)
    rw [len] at round
    simp only [List.range_succ, List.foldl_append, ih (by omega), List.foldl_cons, List.foldl_nil, round]

/-- Decrypt's rounds m − 1 … 0, by induction on m. -/
theorem decRounds_passAt (k : Vector Word 4) (sum : Word) (ws : List Word) {m : Nat} (hm : m ≤ ws.length) :
    (List.range m).reverse.foldl (decRound k) (passAt m (sum, ws)) =
      passAt 0 (sum, (List.range m).reverse.foldl (decWord k sum) ws) := by
  induction m generalizing ws with
  | zero => rfl
  | succ m ih =>
    simp only [List.range_succ, List.reverse_append, List.reverse_singleton, List.singleton_append, List.foldl_cons]
    rw [decRound_passAt k sum (by omega), ih _ (by rw [decWord_length]; omega)]

/-- Going once around the block changes no pass. -/
theorem passAt_add_length (i : Nat) (x : Word × List Word) : passAt (i + x.2.length) x = passAt i x := by
  simp only [passAt, Nat.add_mod_right]

/-- A cycle of Encrypt from the last word: the sum's increment, then the rounds around to the last word again (R110). -/
theorem encCycle_encPassOf (k : Vector Word 4) : Function.Semiconj encPassOf (encBareCycle k) (encCycle k) := by
  rintro ⟨sum, ws⟩
  have sweep := encRounds_passAt k (sum + delta) ws le_rfl
  rcases Nat.eq_zero_or_pos ws.length with empty | some_word
  · obtain rfl := List.length_eq_zero_iff.1 empty
    rfl
  · have around : ws.length + ws.length - 1 = ws.length - 1 + ws.length := by omega
    have len := encSweep_length k (sum + delta) ws
    calc encPassOf (encBareCycle k (sum, ws))
        = passAt (ws.length - 1) (sum + delta, encSweep k (sum + delta) ws) := by simp [encPassOf, encBareCycle]
      _ = passAt (ws.length + ws.length - 1) (sum + delta, encSweep k (sum + delta) ws) := by
          rw [around, ← passAt_add_length, len]
      _ = encCycle k (encPassOf (sum, ws)) := sweep.symm

/-- A cycle of Decrypt from the first word: the rounds down to the first word again, then the sum's decrement (R115). -/
theorem decCycle_decPassOf (k : Vector Word 4) : Function.Semiconj decPassOf (decBareCycle k) (decCycle k) := by
  rintro ⟨sum, ws⟩
  have start : decPassOf (sum, ws) = passAt ws.length (sum, ws) := by
    rw [decPassOf, ← passAt_add_length, Nat.zero_add]
  have sweep : decCycle k (passAt ws.length (sum, ws)) = { passAt 0 (sum, decSweep k sum ws) with sum := sum - delta } :=
    congrArg (fun q : Pass => { q with sum := q.sum - delta }) (decRounds_passAt k sum ws le_rfl)
  rw [start, sweep]
  rfl

theorem encCycles_eq_iterate (k : Vector Word 4) (c : Nat) : encCycles k c = (encCycle k)^[c] := by
  induction c with
  | zero => rfl
  | succ c ih => funext p; rw [encCycles, ih, Function.iterate_succ_apply]

theorem decCycles_eq_iterate (k : Vector Word 4) (c : Nat) : decCycles k c = (decCycle k)^[c] := by
  induction c with
  | zero => rfl
  | succ c ih => funext p; rw [decCycles, ih, Function.iterate_succ_apply]

/-- Encrypt's pass is its cycles on the sum and the words, from sum 0. -/
theorem encryptPass_eq (k : Vector Word 4) (v : List Word) :
    encryptPass k v = encPassOf ((encBareCycle k)^[rounds v.length] (0, v)) := by
  have start : encPassOf (0, v) = { sum := 0, words := v, carry := v.getD (v.length - 1) 0 } := by
    rcases Nat.eq_zero_or_pos v.length with empty | some_word
    · obtain rfl := List.length_eq_zero_iff.1 empty
      rfl
    · rw [encPassOf, passAt, Nat.mod_eq_of_lt (show v.length - 1 < v.length by omega)]
  rw [((encCycle_encPassOf k).iterate_right _).eq, start, encryptPass, encCycles_eq_iterate]

/-- Decrypt's pass is its cycles on the sum and the words, from the start sum. -/
theorem decryptPass_eq (k : Vector Word 4) (v : List Word) :
    decryptPass k v = decPassOf ((decBareCycle k)^[rounds v.length] (startSum v.length, v)) := by
  have start : decPassOf (startSum v.length, v) = { sum := startSum v.length, words := v, carry := v.getD 0 0 } := by
    rw [decPassOf, passAt, Nat.zero_mod]
  rw [((decCycle_decPassOf k).iterate_right _).eq, start, decryptPass, decCycles_eq_iterate]

theorem encryptBlock_eq (k : Vector Word 4) (v : List Word) :
    encryptBlock k v = ((encBareCycle k)^[rounds v.length] (0, v)).2 := by rw [encryptBlock, encryptPass_eq]; rfl

theorem decryptBlock_eq (k : Vector Word 4) (v : List Word) :
    decryptBlock k v = ((decBareCycle k)^[rounds v.length] (startSum v.length, v)).2 := by
  rw [decryptBlock, decryptPass_eq]; rfl

/-! # The sum schedules (R112, R116) -/

theorem encBareCycle_iterate_sum (k : Vector Word 4) (c : Nat) (sum : Word) (ws : List Word) :
    ((encBareCycle k)^[c] (sum, ws)).1 = sum + BitVec.ofNat 32 c * delta := by
  induction c with
  | zero => simp
  | succ c ih =>
    rw [Function.iterate_succ_apply', encBareCycle, ih, BitVec.ofNat_add, BitVec.add_mul, BitVec.one_mul, BitVec.add_assoc]

theorem decBareCycle_iterate_sum (k : Vector Word 4) (c : Nat) (sum : Word) (ws : List Word) :
    ((decBareCycle k)^[c] (sum, ws)).1 = sum - BitVec.ofNat 32 c * delta := by
  induction c with
  | zero => simp
  | succ c ih =>
    rw [Function.iterate_succ_apply', decBareCycle, ih, BitVec.ofNat_add, BitVec.add_mul, BitVec.one_mul, sub_add_eq_sub_sub]

theorem encBareCycle_iterate_length (k : Vector Word 4) (c : Nat) (sum : Word) (ws : List Word) :
    ((encBareCycle k)^[c] (sum, ws)).2.length = ws.length := by
  induction c with
  | zero => rfl
  | succ c ih => rw [Function.iterate_succ_apply', encBareCycle, encSweep_length, ih]

theorem decBareCycle_iterate_length (k : Vector Word 4) (c : Nat) (sum : Word) (ws : List Word) :
    ((decBareCycle k)^[c] (sum, ws)).2.length = ws.length := by
  induction c with
  | zero => rfl
  | succ c ih => rw [Function.iterate_succ_apply', decBareCycle, decSweep_length, ih]

@[simp] theorem encryptBlock_length (k : Vector Word 4) (v : List Word) : (encryptBlock k v).length = v.length := by
  rw [encryptBlock_eq, encBareCycle_iterate_length]

@[simp] theorem decryptBlock_length (k : Vector Word 4) (v : List Word) : (decryptBlock k v).length = v.length := by
  rw [decryptBlock_eq, decBareCycle_iterate_length]

/-- Encrypt's cycles end at the sum Decrypt starts from, with the encrypted words. -/
theorem encBareCycle_iterate_rounds (k : Vector Word 4) (v : List Word) :
    (encBareCycle k)^[rounds v.length] (0, v) = (startSum v.length, encryptBlock k v) := by
  refine Prod.ext ?_ (encryptBlock_eq k v).symm
  rw [encBareCycle_iterate_sum, zero_add, startSum]

/-- Decrypt's cycles end at the sum Encrypt starts from, with the decrypted words. -/
theorem decBareCycle_iterate_rounds (k : Vector Word 4) (v : List Word) :
    (decBareCycle k)^[rounds v.length] (startSum v.length, v) = (0, decryptBlock k v) := by
  refine Prod.ext ?_ (decryptBlock_eq k v).symm
  rw [decBareCycle_iterate_sum, startSum, sub_self]

/-- Settles O27: ROUNDS additions of DELTA from 0 give the start sum, and ROUNDS subtractions lead back from it to 0. -/
theorem sumSchedulesMeet : Obligations.SumSchedulesMeet := by
  intro k v
  have enc_sum : (encryptPass k v).sum = startSum v.length := by rw [encryptPass_eq, encBareCycle_iterate_rounds]; rfl
  have dec_sum : (decryptPass k v).sum = 0 := by rw [decryptPass_eq, decBareCycle_iterate_rounds]; rfl
  exact ⟨enc_sum, enc_sum.symm, dec_sum, encryptBlock_length k v, decryptBlock_length k v⟩

/-! # The round trip (R121)

The term of a round does not read the word it is for, so long as the block has a second word: the round of the other transform
at the same word sees the same term, and takes back what was added or adds what was taken. -/

/-- The neighbours of a word in a block of two words or more are other words, so writing the word leaves its term. -/
theorem roundTerm_set {ws : List Word} (two : 2 ≤ ws.length) {r : Nat} (hr : r < ws.length) (k : Vector Word 4)
    (sum x : Word) : roundTerm k sum (ws.set r x) r = roundTerm k sum ws r := by
  have other {i : Nat} (h : i ≠ r) : (ws.set r x).getD i 0 = ws.getD i 0 := by
    simp only [List.getD_eq_getElem?_getD, List.getElem?_set_ne h.symm]
  have right : (r + 1) % ws.length ≠ r := by
    rcases Nat.lt_or_ge (r + 1) ws.length with inside | last
    · rw [Nat.mod_eq_of_lt inside]; omega
    · rw [show r + 1 = ws.length by omega, Nat.mod_self]; omega
  have left : (r + ws.length - 1) % ws.length ≠ r := by
    rcases Nat.eq_zero_or_pos r with rfl | pos
    · rw [Nat.mod_eq_of_lt (by omega)]; omega
    · rw [show r + ws.length - 1 = r - 1 + ws.length by omega, Nat.add_mod_right, Nat.mod_eq_of_lt (by omega)]; omega
  simp only [roundTerm, List.length_set, other right, other left]

theorem set_set_getD {ws : List Word} {r : Nat} (hr : r < ws.length) (x : Word) :
    (ws.set r x).set r (ws.getD r 0) = ws := by
  simp [List.getD_eq_getElem?_getD, hr]

theorem decWord_encWord {ws : List Word} (two : 2 ≤ ws.length) {r : Nat} (hr : r < ws.length) (k : Vector Word 4)
    (sum : Word) : decWord k sum (encWord k sum ws r) r = ws := by
  rw [decWord, encWord, roundTerm_set two hr, getD_set_self hr, BitVec.add_sub_cancel, set_set_getD hr]

theorem encWord_decWord {ws : List Word} (two : 2 ≤ ws.length) {r : Nat} (hr : r < ws.length) (k : Vector Word 4)
    (sum : Word) : encWord k sum (decWord k sum ws r) r = ws := by
  rw [encWord, decWord, roundTerm_set two hr, getD_set_self hr, BitVec.sub_add_cancel, set_set_getD hr]

/-- Rounds done in some order are undone in the reverse order, when each is undone on its own. -/
theorem foldl_reverse_undoes {f g : List Word → Nat → List Word} {n : Nat} (len : ∀ ws r, (f ws r).length = ws.length)
    (undo : ∀ ws r, ws.length = n → r < n → g (f ws r) r = ws) {l : List Nat} (hl : ∀ r ∈ l, r < n) {ws : List Word}
    (hws : ws.length = n) : l.reverse.foldl g (l.foldl f ws) = ws := by
  induction l generalizing ws with
  | nil => rfl
  | cons r l ih =>
    obtain ⟨hr, hl⟩ := List.forall_mem_cons.1 hl
    rw [List.foldl_cons, List.reverse_cons, List.foldl_append, ih hl ((len ws r).trans hws)]
    exact undo ws r hws hr

theorem decSweep_encSweep {ws : List Word} (two : 2 ≤ ws.length) (k : Vector Word 4) (sum : Word) :
    decSweep k sum (encSweep k sum ws) = ws := by
  rw [decSweep, encSweep_length]
  exact foldl_reverse_undoes (encWord_length k sum) (fun vs r hvs hr => decWord_encWord (hvs ▸ two) (hvs ▸ hr) k sum)
    (fun r => List.mem_range.1) rfl

theorem encSweep_decSweep {ws : List Word} (two : 2 ≤ ws.length) (k : Vector Word 4) (sum : Word) :
    encSweep k sum (decSweep k sum ws) = ws := by
  rw [encSweep, decSweep_length, ← List.reverse_reverse (List.range ws.length)]
  exact foldl_reverse_undoes (decWord_length k sum) (fun vs r hvs hr => encWord_decWord (hvs ▸ two) (hvs ▸ hr) k sum)
    (fun r hr => List.mem_range.1 (List.mem_reverse.1 hr)) rfl

theorem decBareCycle_encBareCycle {x : Word × List Word} (two : 2 ≤ x.2.length) (k : Vector Word 4) :
    decBareCycle k (encBareCycle k x) = x := by
  simp only [decBareCycle, encBareCycle, BitVec.add_sub_cancel, decSweep_encSweep two]

theorem encBareCycle_decBareCycle {x : Word × List Word} (two : 2 ≤ x.2.length) (k : Vector Word 4) :
    encBareCycle k (decBareCycle k x) = x := by
  simp only [decBareCycle, encBareCycle, BitVec.sub_add_cancel, encSweep_decSweep two]

/-- Cycles are undone by as many cycles back, when each is undone on its own along the way. -/
theorem iterate_undoes {α : Type} {f g : α → α} {x : α} (undo : ∀ c, g (f (f^[c] x)) = f^[c] x) (c : Nat) :
    g^[c] (f^[c] x) = x := by
  induction c with
  | zero => rfl
  | succ c ih => rw [Function.iterate_succ_apply' f, Function.iterate_succ_apply g, undo, ih]

/-- Settles O24: Decrypt starts where Encrypt's cycles end, and each of its cycles undoes the last one left. -/
theorem decryptUndoesEncrypt : Obligations.DecryptUndoesEncrypt := by
  intro k v two
  have undo : (decBareCycle k)^[rounds v.length] ((encBareCycle k)^[rounds v.length] (0, v)) = (0, v) :=
    iterate_undoes (fun c => decBareCycle_encBareCycle ((encBareCycle_iterate_length k c 0 v).symm ▸ two) k) _
  rw [encBareCycle_iterate_rounds] at undo
  rw [decryptBlock_eq, encryptBlock_length, undo]

/-- Settles O25: Decrypt's cycles end at sum 0, where Encrypt starts, and each of Encrypt's cycles undoes the last one left. -/
theorem encryptUndoesDecrypt : Obligations.EncryptUndoesDecrypt := by
  intro k v two
  have undo : (encBareCycle k)^[rounds v.length] ((decBareCycle k)^[rounds v.length] (startSum v.length, v)) =
      (startSum v.length, v) :=
    iterate_undoes (fun c => encBareCycle_decBareCycle ((decBareCycle_iterate_length k c _ v).symm ▸ two) k) _
  rw [decBareCycle_iterate_rounds] at undo
  rw [encryptBlock_eq, decryptBlock_length, undo]

/-! # A block of one word (R120) -/

theorem rounds_one : rounds 1 = 58 := rfl

/-- Encrypt's round on a single word, which is its own left and right neighbour. -/
def singleEncRound (k : Vector Word 4) (sum v : Word) : Word := v + mx sum v v (keyWord k (keyIndex 0 sum))

/-- Decrypt's round on a single word. -/
def singleDecRound (k : Vector Word 4) (sum v : Word) : Word := v - mx sum v v (keyWord k (keyIndex 0 sum))

theorem encSweep_singleton (k : Vector Word 4) (sum x : Word) :
    encSweep k sum [x] = [singleEncRound k sum x] := by
  simp [singleEncRound, encSweep, encWord, roundTerm]

theorem decSweep_singleton (k : Vector Word 4) (sum x : Word) :
    decSweep k sum [x] = [singleDecRound k sum x] := by
  simp [singleDecRound, decSweep, decWord, roundTerm]

/-- `c` cycles of Encrypt on a single word: cycle i has the sum (i + 1) * DELTA. -/
theorem encBareCycle_iterate_singleton (k : Vector Word 4) (x : Word) (c : Nat) :
    ((encBareCycle k)^[c] (0, [x])).2 =
      [(List.range c).foldl (fun v i => singleEncRound k (BitVec.ofNat 32 (i + 1) * delta) v) x] := by
  induction c with
  | zero => rfl
  | succ c ih =>
    have sum : ((encBareCycle k)^[c] (0, [x])).1 + delta = BitVec.ofNat 32 (c + 1) * delta := by
      rw [encBareCycle_iterate_sum, zero_add, BitVec.ofNat_add, BitVec.add_mul, BitVec.one_mul]
    rw [Function.iterate_succ_apply', encBareCycle, sum, ih, encSweep_singleton, List.range_succ, List.foldl_append]
    rfl

/-- `c` cycles of Decrypt on a single word, of the `n` to come: cycle i has the sum (n − i) * DELTA. -/
theorem decBareCycle_iterate_singleton (k : Vector Word 4) (x : Word) {n c : Nat} (hc : c ≤ n) :
    ((decBareCycle k)^[c] (BitVec.ofNat 32 n * delta, [x])).2 =
      [(List.range c).foldl (fun v i => singleDecRound k (BitVec.ofNat 32 (n - i) * delta) v) x] := by
  induction c with
  | zero => rfl
  | succ c ih =>
    have split : BitVec.ofNat 32 n * delta = BitVec.ofNat 32 (n - c) * delta + BitVec.ofNat 32 c * delta := by
      rw [← BitVec.add_mul, ← BitVec.ofNat_add, Nat.sub_add_cancel (by omega)]
    have sum : ((decBareCycle k)^[c] (BitVec.ofNat 32 n * delta, [x])).1 = BitVec.ofNat 32 (n - c) * delta := by
      rw [decBareCycle_iterate_sum, split, BitVec.add_sub_cancel]
    rw [Function.iterate_succ_apply', decBareCycle, sum, ih (by omega), decSweep_singleton, List.range_succ, List.foldl_append]
    rfl

/-- Settles O26: rounds(1) = 58 cycles on a single word, and the two values of the rule's example computed. -/
theorem singleWordBlocksFollowTheFormulas : Obligations.SingleWordBlocksFollowTheFormulas := by
  refine ⟨fun k x => ⟨?_, ?_⟩, by decide +kernel, by decide +kernel⟩
  · rw [encryptBlock_eq, List.length_singleton, rounds_one, encBareCycle_iterate_singleton]; rfl
  · rw [decryptBlock_eq, List.length_singleton, startSum, rounds_one, decBareCycle_iterate_singleton k x le_rfl]; rfl

end Sys2Proof.Machine

namespace Sys2Proof.Machine

/-! # What the commands do in each phase -/

/-- Settles O9: NOP is gated by the phase like every command, and does nothing in IDLE. -/
theorem nopChangesNothing : Obligations.NopChangesNothing := by
  intro s
  refine ⟨fun idle => ?_, fun busy => ?_, fun faulted => ?_⟩
  · exact congrArg Host.Outcome.next (State.acceptInIdle_idle id idle)
  · exact congrArg Host.Outcome.next (State.acceptInIdle_busy id busy)
  · exact congrArg Host.Outcome.next (State.acceptInIdle_faulted id faulted)

theorem exec_encrypt_of_idle {s : State} (hp : s.phase = .idle) :
    exec .encrypt s = .next (s.checkThen State.acceptEncrypt) :=
  congrArg Host.Outcome.next (State.acceptInIdle_idle _ hp)

theorem exec_decrypt_of_idle {s : State} (hp : s.phase = .idle) :
    exec .decrypt s = .next (s.checkThen State.acceptDecrypt) :=
  congrArg Host.Outcome.next (State.acceptInIdle_idle _ hp)

theorem State.checkThen_of_ok (accept : State → State) {s : State} (h : checkLen s.params s.len = .none) :
    s.checkThen accept = accept s := if_pos h

theorem State.checkThen_of_failed (accept : State → State) {s : State} {code : FaultCode}
    (h : checkLen s.params s.len = code) (hc : code ≠ .none) : s.checkThen accept = s.raiseFault code := by
  subst h; exact if_neg hc

theorem exec_encrypt_accepted {s : State} (hp : s.phase = .idle) (hl : checkLen s.params s.len = .none) :
    exec .encrypt s = .next s.acceptEncrypt := by rw [exec_encrypt_of_idle hp, State.checkThen_of_ok _ hl]

theorem exec_decrypt_accepted {s : State} (hp : s.phase = .idle) (hl : checkLen s.params s.len = .none) :
    exec .decrypt s = .next s.acceptDecrypt := by rw [exec_decrypt_of_idle hp, State.checkThen_of_ok _ hl]

theorem wordCount_eq_ofNat (len : Word) : wordCount len = BitVec.ofNat 32 (len.toNat / 4) := by
  rw [← wordCount_toNat, BitVec.ofNat_toNat, BitVec.setWidth_eq]

/-- Settles O11: AcceptEncrypt with N read off LEN. -/
theorem encryptIsAccepted : Obligations.EncryptIsAccepted := by
  intro s hp h0 h4 hmax
  rw [exec_encrypt_accepted hp (checkLen_ok_iff.2 ⟨h0, h4, hmax⟩), State.acceptEncrypt, wordCount_toNat, wordCount_eq_ofNat]
  rfl

/-- Settles O12: AcceptDecrypt with N read off LEN; N − 1 is no wrap, since N is positive. -/
theorem decryptIsAccepted : Obligations.DecryptIsAccepted := by
  intro s hp h0 h4 hmax
  have ok := checkLen_ok_iff.2 ⟨h0, h4, hmax⟩
  have last : wordCount s.len - 1 = BitVec.ofNat 32 (s.len.toNat / 4 - 1) := by
    have positive := (wordCount_bounds ok).1
    rw [← wordCount_toNat]
    bv_omega
  rw [exec_decrypt_accepted hp ok, State.acceptDecrypt, last, wordCount_toNat, wordCount_eq_ofNat]
  rfl

/-- ENCRYPT and DECRYPT in IDLE are the same length check before an acceptance that leaves a BUSY block and FCODE (R143). -/
theorem exec_checks_length {s : State} {i : Instr} (h : i = .encrypt ∨ i = .decrypt) (hp : s.phase = .idle) :
    ∃ accept : State → State, exec i s = .next (s.checkThen accept) ∧ (accept s).busy = true ∧ (accept s).fcode = s.fcode := by
  rcases h with rfl | rfl
  · exact ⟨_, exec_encrypt_of_idle hp, rfl, rfl⟩
  · exact ⟨_, exec_decrypt_of_idle hp, rfl, rfl⟩

/-- Settles O13: what each clause assumes of LEN is the value of the length check. -/
theorem lengthChecksFaultInOrder : Obligations.LengthChecksFaultInOrder := by
  intro s i hi hp
  obtain ⟨accept, e, busy, fcode⟩ := exec_checks_length hi hp
  have faults : ∀ {code}, checkLen s.params s.len = code → code ≠ .none →
      exec i s = .next { s with phase := .faulted, fcode := code } := fun h hc => by
    rw [e, State.checkThen_of_failed accept h hc]; rfl
  refine ⟨fun h0 => ?_, fun h0 h4 => ?_, fun h0 h4 hmax => ?_, fun h0 h4 hmax => ?_, checkLen_ne_keyLen _ _⟩
  · exact faults (checkLen_zero h0) (by decide)
  · exact faults (checkLen_unaligned h0 h4) (by decide)
  · exact faults (checkLen_range h0 h4 hmax) (by decide)
  · exact ⟨accept s, by rw [e, State.checkThen_of_ok accept (checkLen_ok_iff.2 ⟨h0, h4, hmax⟩)], busy, fcode⟩

/-! # One turn of the engine -/

/-- Settles O18: the turn is the engine's, and the phase decides what it does. -/
theorem engineTurnsByPhase : Obligations.EngineTurnsByPhase := by
  intro s turn
  rw [step_of_engine turn]
  exact ⟨engineTurn_enc (s := s.popTurn), engineTurn_dec (s := s.popTurn),
    fun h => engineTurn_notBusy ((State.not_busy_iff s.popTurn).2 h)⟩

/-! ### The three endings of an engine step (R151, R152, R153) -/

section Endings
variable {s : State}

theorem State.encAdvance_inside (h : s.seq.r ≠ s.seq.n - 1) :
    s.encAdvance = { s with seq := { s.seq with r := s.seq.r + 1 } } := if_neg h

theorem State.encAdvance_nextCycle (h : s.seq.r = s.seq.n - 1) (hc : s.seq.cyc + 1 ≠ s.seq.rounds) :
    s.encAdvance = { s with seq := { s.seq with r := 0, cyc := s.seq.cyc + 1 } } := (if_pos h).trans (if_neg hc)

theorem State.encAdvance_completes (h : s.seq.r = s.seq.n - 1) (hc : s.seq.cyc + 1 = s.seq.rounds) :
    s.encAdvance = s.complete := (if_pos h).trans (if_pos hc)

theorem State.decAdvance_inside (h : s.seq.r ≠ 0) :
    s.decAdvance = { s with seq := { s.seq with r := s.seq.r - 1 } } := if_neg h

theorem State.decAdvance_nextCycle (h : s.seq.r = 0) (hc : s.seq.cyc + 1 ≠ s.seq.rounds) :
    s.decAdvance = { s with seq := { s.seq with sum := s.seq.sum - delta, r := s.seq.n - 1, cyc := s.seq.cyc + 1 } } :=
  (if_pos h).trans (if_neg hc)

theorem State.decAdvance_completes (h : s.seq.r = 0) (hc : s.seq.cyc + 1 = s.seq.rounds) : s.decAdvance = s.complete :=
  (if_pos h).trans (if_pos hc)

end Endings

/-! ### EncStep and DecStep with their frames (R63) -/

theorem encStep_of_inBlock {s : State} (hr : s.seq.r.toNat < s.seq.n.toNat) (hn : s.seq.n.toNat ≤ s.params.nmax) :
    encStep s = .next s.encUpdate.encAdvance := if_pos (s.indexInBlock_iff.2 ⟨hr, hn⟩)

theorem decStep_of_inBlock {s : State} (hr : s.seq.r.toNat < s.seq.n.toNat) (hn : s.seq.n.toNat ≤ s.params.nmax) :
    decStep s = .next s.decUpdate.decAdvance := if_pos (s.indexInBlock_iff.2 ⟨hr, hn⟩)

theorem State.encStep_blockWord (s : State) (j : Nat) :
    s.encUpdate.encAdvance.blockWord j = if j = s.seq.r.toNat then s.encValue else s.blockWord j := by
  rw [State.encAdvance_blockWord, State.encUpdate_blockWord]

theorem State.decStep_blockWord (s : State) (j : Nat) :
    s.decUpdate.decAdvance.blockWord j = if j = s.seq.r.toNat then s.decValue else s.blockWord j := by
  rw [State.decAdvance_blockWord, State.decUpdate_blockWord]

/-- Settles O19: the word is EncStep's update, and its index part has the three endings. -/
theorem encStepUpdatesOneWord : Obligations.EncStepUpdatesOneWord := by
  intro s turn enc hr hn
  have last := last_index_iff hr
  refine ⟨s.popTurn.encUpdate.encAdvance, ?_, ?_, s.popTurn.encStep_blockWord, ?_, ?_, ?_⟩
  · rw [step_of_engine turn, engineTurn_enc (s := s.popTurn) enc, encStep_of_inBlock (s := s.popTurn) hr hn]
  · intro a; rw [State.encAdvance_blockByte]; exact s.popTurn.encUpdate_blockByte a
  · intro inside
    have ne : s.popTurn.encUpdate.seq.r ≠ s.popTurn.encUpdate.seq.n - 1 := fun h => by have := last.1 h; omega
    rw [State.encAdvance_inside ne]; rfl
  · intro ends goesOn
    rw [State.encAdvance_nextCycle (s := s.popTurn.encUpdate) (last.2 ends) goesOn]; rfl
  · intro ends completes
    rw [State.encAdvance_completes (s := s.popTurn.encUpdate) (last.2 ends) completes]; rfl

/-- Settles O20: the word is DecStep's update, and its index part has the three endings. -/
theorem decStepUpdatesOneWord : Obligations.DecStepUpdatesOneWord := by
  intro s turn dec hr hn
  refine ⟨s.popTurn.decUpdate.decAdvance, ?_, ?_, s.popTurn.decStep_blockWord, ?_, ?_, ?_⟩
  · rw [step_of_engine turn, engineTurn_dec (s := s.popTurn) dec, decStep_of_inBlock (s := s.popTurn) hr hn]
  · intro a; rw [State.decAdvance_blockByte]; exact s.popTurn.decUpdate_blockByte a
  · intro inside
    rw [State.decAdvance_inside (s := s.popTurn.decUpdate) inside]; rfl
  · intro ends goesOn
    rw [State.decAdvance_nextCycle (s := s.popTurn.decUpdate) ends goesOn]; rfl
  · intro ends completes
    rw [State.decAdvance_completes (s := s.popTurn.decUpdate) ends completes]; rfl

end Sys2Proof.Machine

namespace Sys2Proof.Machine

/-! # The transform, one engine step at a time

The engine runs a transform as one flat sequence of ROUNDS · N steps. Step c·N + i is step i of cycle c: Encrypt takes the words
upwards and Decrypt downwards (R110, R115, R151, R152). -/

/-- What step `i` of cycle `c` of the command that runs in phase `p` does to a block of `n` words. -/
def engineRound (p : Phase) (k : Vector Word 4) (n c i : Nat) (ws : List Word) : List Word :=
  if p = .dec then decWord k (startSum n - BitVec.ofNat 32 c * delta) ws (n - 1 - i)
  else encWord k (BitVec.ofNat 32 (c + 1) * delta) ws i

/-- The words of the block `v` after so many engine steps of the command that runs in phase `p`. -/
def wordsAfter (p : Phase) (k : Vector Word 4) (v : List Word) : Nat → List Word
  | 0 => v
  | m + 1 => engineRound p k v.length (m / v.length) (m % v.length) (wordsAfter p k v m)

theorem wordsAfter_succ (p : Phase) (k : Vector Word 4) (v : List Word) (c : Nat) {i : Nat} (hi : i < v.length) :
    wordsAfter p k v (c * v.length + i + 1) = engineRound p k v.length c i (wordsAfter p k v (c * v.length + i)) := by
  have cycle : (c * v.length + i) / v.length = c := by
    rw [Nat.add_comm, Nat.add_mul_div_right _ _ (by omega), Nat.div_eq_of_lt hi, Nat.zero_add]
  have place : (c * v.length + i) % v.length = i := by rw [Nat.mul_add_mod', Nat.mod_eq_of_lt hi]
  rw [wordsAfter, cycle, place]

/-- The steps inside cycle c are a fold over its first places. -/
theorem wordsAfter_fold (p : Phase) (k : Vector Word 4) (v : List Word) (c : Nat) {i : Nat} (hi : i ≤ v.length) :
    wordsAfter p k v (c * v.length + i) =
      (List.range i).foldl (fun ws j => engineRound p k v.length c j ws) (wordsAfter p k v (c * v.length)) := by
  induction i with
  | zero => rfl
  | succ i ih => rw [List.range_succ, List.foldl_concat, ← ih (by omega), ← wordsAfter_succ p k v c hi]; rfl

/-- Going down a block of n words is going up and counting from its end. -/
theorem foldl_reverse_range {α : Type} (f : α → Nat → α) (a : α) (n : Nat) :
    (List.range n).reverse.foldl f a = (List.range n).foldl (fun x i => f x (n - 1 - i)) a := by
  rw [List.range_eq_range', List.reverse_range', List.foldl_map, List.range_eq_range']
  simp only [Nat.zero_add]

theorem wordsAfter_enc_cycles (k : Vector Word 4) (v : List Word) (c : Nat) :
    wordsAfter .enc k v (c * v.length) = ((encBareCycle k)^[c] (0, v)).2 := by
  induction c with
  | zero => rw [Nat.zero_mul]; rfl
  | succ c ih =>
    have sum := encBareCycle_iterate_sum k (c + 1) 0 v
    rw [Function.iterate_succ_apply', zero_add] at sum
    rw [Nat.succ_mul, wordsAfter_fold .enc k v c le_rfl, ih, Function.iterate_succ_apply']
    show _ = encSweep k (encBareCycle k _).1 _
    rw [sum, encSweep, encBareCycle_iterate_length]
    rfl

theorem wordsAfter_dec_cycles (k : Vector Word 4) (v : List Word) (c : Nat) :
    wordsAfter .dec k v (c * v.length) = ((decBareCycle k)^[c] (startSum v.length, v)).2 := by
  induction c with
  | zero => rw [Nat.zero_mul]; rfl
  | succ c ih =>
    rw [Nat.succ_mul, wordsAfter_fold .dec k v c le_rfl, ih, Function.iterate_succ_apply', decBareCycle, decSweep,
      decBareCycle_iterate_sum, decBareCycle_iterate_length, foldl_reverse_range]
    rfl

/-- ROUNDS · N engine steps of ENC are Encrypt (R110, R154). -/
theorem wordsAfter_enc (k : Vector Word 4) {v : List Word} {n : Nat} (hn : v.length = n) :
    wordsAfter .enc k v (rounds n * n) = encryptBlock k v := by
  rw [← hn, wordsAfter_enc_cycles, encryptBlock_eq]

/-- ROUNDS · N engine steps of DEC are Decrypt (R115, R154). -/
theorem wordsAfter_dec (k : Vector Word 4) {v : List Word} {n : Nat} (hn : v.length = n) :
    wordsAfter .dec k v (rounds n * n) = decryptBlock k v := by
  rw [← hn, wordsAfter_dec_cycles, decryptBlock_eq]

/-! # How far a command is

CYC and R say how many engine steps a running command has taken. -/

/-- The place of the next engine step inside its cycle: ENC counts R up from 0, DEC down from N − 1 (R151, R152). -/
def State.place (s : State) : Nat := if s.phase = .dec then s.seq.n.toNat - 1 - s.seq.r.toNat else s.seq.r.toNat

/-- The engine steps that the running command has taken. -/
def State.stepsDone (s : State) : Nat := s.seq.cyc.toNat * s.seq.n.toNat + s.place

/-- The engine steps of the whole running command (R156). -/
def State.stepsTotal (s : State) : Nat := rounds s.seq.n.toNat * s.seq.n.toNat

theorem State.place_enc {s : State} (h : s.phase = .enc) : s.place = s.seq.r.toNat := by simp [State.place, h]

theorem State.place_dec {s : State} (h : s.phase = .dec) : s.place = s.seq.n.toNat - 1 - s.seq.r.toNat := by
  simp [State.place, h]

theorem State.stepsDone_enc {s : State} (h : s.phase = .enc) :
    s.stepsDone = s.seq.cyc.toNat * s.seq.n.toNat + s.seq.r.toNat := by rw [State.stepsDone, State.place_enc h]

theorem State.stepsDone_dec {s : State} (h : s.phase = .dec) :
    s.stepsDone = s.seq.cyc.toNat * s.seq.n.toNat + (s.seq.n.toNat - 1 - s.seq.r.toNat) := by
  rw [State.stepsDone, State.place_dec h]

theorem State.Inv.place_lt {s : State} (hi : s.Inv) (hb : s.busy = true) : s.place < s.seq.n.toNat := by
  have := hi.busy_r hb
  unfold State.place
  split <;> omega

theorem State.Inv.rounds_toNat {s : State} (hi : s.Inv) (hb : s.busy = true) :
    s.seq.rounds.toNat = rounds s.seq.n.toNat := by rw [hi.busy_rounds hb, Machine.rounds_toNat]

theorem State.Inv.stepsDone_lt {s : State} (hi : s.Inv) (hb : s.busy = true) : s.stepsDone < s.stepsTotal := by
  have place := hi.place_lt hb
  have cyc := hi.busy_cyc hb
  rw [hi.rounds_toNat hb] at cyc
  calc s.stepsDone < (s.seq.cyc.toNat + 1) * s.seq.n.toNat := by rw [State.stepsDone, Nat.succ_mul]; omega
    _ ≤ s.stepsTotal := Nat.mul_le_mul_right _ cyc

/-- A cycle that ends goes on with the next one, or CYC + 1 cycles were all of them. -/
theorem State.Inv.cyc_succ {s : State} (hi : s.Inv) (hb : s.busy = true) :
    (s.seq.cyc + 1).toNat = s.seq.cyc.toNat + 1 ∧
    (s.seq.cyc + 1 = s.seq.rounds → (s.seq.cyc.toNat + 1) * s.seq.n.toNat = s.stepsTotal) := by
  have lt := hi.busy_cyc hb
  have succ : (s.seq.cyc + 1).toNat = s.seq.cyc.toNat + 1 := by bv_omega
  exact ⟨succ, fun last => by rw [← succ, last, hi.rounds_toNat hb, State.stepsTotal]⟩

theorem engineTurn_next_enc {s t : State} (hp : s.phase = .enc) (e : engineTurn s = .next t) :
    t = s.encUpdate.encAdvance := (encStep_next ((engineTurn_enc hp).symm.trans e)).2

theorem engineTurn_next_dec {s t : State} (hp : s.phase = .dec) (e : engineTurn s = .next t) :
    t = s.decUpdate.decAdvance := (decStep_next ((engineTurn_dec hp).symm.trans e)).2

/-- An engine step takes the command one step on, or it was the last one (R151, R152, R153). -/
inductive Advance (s t : State) : Prop
  | goesOn (phase : t.phase = s.phase) (n : t.seq.n = s.seq.n) (steps : t.stepsDone = s.stepsDone + 1)
  | completes (phase : t.phase = .idle) (done : t.done = true) (steps : s.stepsDone + 1 = s.stepsTotal)

theorem encStep_advances {s : State} (hi : s.Inv) (hp : s.phase = .enc) : Advance s s.encUpdate.encAdvance := by
  have hb := (State.busy_iff s).2 (.inl hp)
  have hr := hi.busy_r hb
  have before := State.stepsDone_enc hp
  obtain ⟨cyc_succ, total⟩ := hi.cyc_succ hb
  rcases State.encAdvance_cases (s := s.encUpdate) with ⟨inside, e⟩ | ⟨ends, hc, e⟩ | ⟨ends, hc, e⟩ <;> rw [e]
  · have r_ne : s.seq.r.toNat + 1 ≠ s.seq.n.toNat := fun h => inside ((last_index_iff hr).2 h)
    have r_succ : (s.seq.r + 1).toNat = s.seq.r.toNat + 1 := by bv_omega
    refine .goesOn rfl rfl (Eq.trans (State.stepsDone_enc hp) ?_)
    show s.seq.cyc.toNat * s.seq.n.toNat + (s.seq.r + 1).toNat = _
    omega
  · have r_last := (last_index_iff hr).1 ends
    refine .goesOn rfl rfl (Eq.trans (State.stepsDone_enc hp) ?_)
    show (s.seq.cyc + 1).toNat * s.seq.n.toNat + 0 = _
    rw [cyc_succ, Nat.succ_mul, before, Nat.add_assoc _ _ 1, r_last, Nat.add_zero]
  · have r_last := (last_index_iff hr).1 ends
    exact .completes rfl rfl (by rw [← total hc, Nat.succ_mul, before, Nat.add_assoc, r_last])

theorem decStep_advances {s : State} (hi : s.Inv) (hp : s.phase = .dec) : Advance s s.decUpdate.decAdvance := by
  have hb := (State.busy_iff s).2 (.inr hp)
  have hr := hi.busy_r hb
  have before := State.stepsDone_dec hp
  obtain ⟨cyc_succ, total⟩ := hi.cyc_succ hb
  rcases State.decAdvance_cases (s := s.decUpdate) with ⟨inside, e⟩ | ⟨ends, hc, e⟩ | ⟨ends, hc, e⟩ <;> rw [e]
  · have r_ne : s.seq.r.toNat ≠ 0 := fun h => inside (BitVec.eq_of_toNat_eq h)
    have r_pred : (s.seq.r - 1).toNat + 1 = s.seq.r.toNat := by bv_omega
    refine .goesOn rfl rfl (Eq.trans (State.stepsDone_dec hp) ?_)
    show s.seq.cyc.toNat * s.seq.n.toNat + (s.seq.n.toNat - 1 - (s.seq.r - 1).toNat) = _
    omega
  · have r_zero : s.seq.r.toNat = 0 := congrArg BitVec.toNat ends
    have n_pred : (s.seq.n - 1).toNat = s.seq.n.toNat - 1 := by bv_omega
    refine .goesOn rfl rfl (Eq.trans (State.stepsDone_dec hp) ?_)
    show (s.seq.cyc + 1).toNat * s.seq.n.toNat + (s.seq.n.toNat - 1 - (s.seq.n - 1).toNat) = _
    rw [cyc_succ, Nat.succ_mul]
    omega
  · have r_zero : s.seq.r.toNat = 0 := congrArg BitVec.toNat ends
    exact .completes rfl rfl (by rw [← total hc, Nat.succ_mul]; omega)

theorem engineTurn_advances {s t : State} (hi : s.Inv) (hb : s.busy = true) (e : engineTurn s = .next t) :
    Advance s t := by
  rcases (State.busy_iff s).1 hb with hp | hp
  · rw [engineTurn_next_enc hp e]; exact encStep_advances hi hp
  · rw [engineTurn_next_dec hp e]; exact decStep_advances hi hp

/-! ### What the step does to the block -/

/-- MX's operands in the block are the state's words (R104, R111, R117). -/
theorem State.roundTerm_block (s : State) (k : Vector Word 4) (sum : Word) {n : Nat} {r : Word} (hr : r.toNat < n) :
    roundTerm k sum (s.block n) r.toNat =
      mx sum (s.blockWord ((r.toNat + 1) % n)) (s.blockWord ((r.toNat + n - 1) % n)) (keyWord k (keyIndex r sum)) := by
  have hn : 0 < n := by omega
  rw [roundTerm, State.block_length, State.block_getD s (Nat.mod_lt _ hn), State.block_getD s (Nat.mod_lt _ hn),
    BitVec.ofNat_toNat, BitVec.setWidth_eq]

/-- The neighbour that Z carries is a word of the block, so EncStep is Encrypt's round (R111, R151). -/
theorem encStep_block {s : State} (hi : s.Inv) (hp : s.phase = .enc) :
    s.encUpdate.encAdvance.block s.seq.n.toNat =
      engineRound .enc s.key s.seq.n.toNat s.seq.cyc.toNat s.place (s.block s.seq.n.toNat) := by
  have hr := hi.busy_r ((State.busy_iff s).2 (.inl hp))
  have sum : BitVec.ofNat 32 (s.seq.cyc.toNat + 1) * delta = s.encSum := by
    rw [hi.encSum_eq hp, BitVec.ofNat_add, BitVec.ofNat_toNat, BitVec.setWidth_eq]
    rfl
  have value : s.encValue =
      (s.block s.seq.n.toNat).getD s.seq.r.toNat 0 + roundTerm s.key s.encSum (s.block s.seq.n.toNat) s.seq.r.toNat := by
    rw [State.block_getD s hr, State.roundTerm_block s _ _ hr, ← hi.enc_z hp]
    rfl
  rw [State.block_set _ s.encStep_blockWord, State.place_enc hp, value]
  simp only [engineRound, encWord, sum, reduceCtorEq, if_false]

/-- The neighbour that Y carries is a word of the block, so DecStep is Decrypt's round (R117, R152). -/
theorem decStep_block {s : State} (hi : s.Inv) (hp : s.phase = .dec) :
    s.decUpdate.decAdvance.block s.seq.n.toNat =
      engineRound .dec s.key s.seq.n.toNat s.seq.cyc.toNat s.place (s.block s.seq.n.toNat) := by
  have hb := (State.busy_iff s).2 (.inr hp)
  have hr := hi.busy_r hb
  have sum : startSum s.seq.n.toNat - BitVec.ofNat 32 s.seq.cyc.toNat * delta = s.seq.sum := by
    rw [hi.dec_sum hp, hi.busy_rounds hb, startSum, BitVec.ofNat_toNat, BitVec.setWidth_eq]
    ring
  have place : s.seq.n.toNat - 1 - s.place = s.seq.r.toNat := by rw [State.place_dec hp]; omega
  have value : s.decValue =
      (s.block s.seq.n.toNat).getD s.seq.r.toNat 0 - roundTerm s.key s.seq.sum (s.block s.seq.n.toNat) s.seq.r.toNat := by
    rw [State.block_getD s hr, State.roundTerm_block s _ _ hr, ← hi.dec_y hp]
    rfl
  rw [State.block_set _ s.decStep_blockWord, value]
  simp only [engineRound, decWord, sum, place, if_true]

theorem engineTurn_block {s t : State} (hi : s.Inv) (hb : s.busy = true) (e : engineTurn s = .next t) :
    t.block s.seq.n.toNat =
      engineRound s.phase s.key s.seq.n.toNat s.seq.cyc.toNat s.place (s.block s.seq.n.toNat) := by
  rcases (State.busy_iff s).1 hb with hp | hp <;> rw [hp]
  · rw [engineTurn_next_enc hp e]; exact encStep_block hi hp
  · rw [engineTurn_next_dec hp e]; exact decStep_block hi hp

/-! # Host turns while BUSY -/

theorem State.nextTurn_of_cons {s : State} {x : Turn} {rest : List Turn} (h : s.turns = x :: rest) : s.nextTurn = x := by
  simp [State.nextTurn, h]

/-- While BUSY a turn of a host that issues no soft reset changes WERR and the model's own fields only (R196, R197). -/
theorem step_of_busy_host {s : State} (hb : s.busy = true) (turn : s.nextTurn = .host)
    (hr : ∀ op, s.hostIssues op → op.isSoftReset = false) :
    ∃ w d h a, (∀ op ∈ h, op ∈ s.host) ∧
      step s = .next { s.popTurn with werr := w, draws := d, host := h, answer := a } := by
  rcases hh : s.host with _ | ⟨op, ops⟩
  · exact ⟨s.werr, s.draws, [], s.answer, by simp, by rw [step_of_host_empty turn hh, ← hh]; rfl⟩
  · have issues : s.hostIssues op := ⟨turn, by rw [hh]; rfl⟩
    obtain ⟨w, d, a, h, list, -, e⟩ := hostOp_busy (s := s.issued) hb (hr op issues)
    refine ⟨w, d, h, some a, ?_, (step_of_host issues).trans e⟩
    rcases list with rfl | rfl <;> simp +contextual [hh]

/-! # A command in progress -/

/-- What `u` has computed after `m` engine steps of the command that began in `s` and runs in phase `p`, and what of `s` it has
kept. -/
structure Computed (s : State) (p : Phase) (m : Nat) (u : State) : Prop where
  len : u.len = s.len
  key : u.key = s.key
  block : u.block (s.len.toNat / 4) = wordsAfter p s.key (s.block (s.len.toNat / 4)) m
  outside : ∀ a, a < 0x1000 ∨ 0x1000 + s.len.toNat ≤ a → u.blockByte a = s.blockByte a

/-- `u` stands inside the command that began in `s` and runs in phase `p`, and the host will not reset it. -/
structure Underway (s : State) (p : Phase) (u : State) : Prop where
  inv : u.Inv
  phase : u.phase = p
  host : ∀ op ∈ u.host, op.isSoftReset = false
  computed : Computed s p u.stepsDone u

section Run
variable {s u : State} {p : Phase} (hb : p.busy = true) (h : Underway s p u)
include hb h

theorem Underway.busy : u.busy = true := by rw [State.busy, h.phase, hb]

theorem Underway.n_eq : u.seq.n.toNat = s.len.toNat / 4 := by
  rw [h.inv.busy_n (h.busy hb), wordCount_toNat, h.computed.len]

theorem Underway.stepsTotal_eq : u.stepsTotal = rounds (s.len.toNat / 4) * (s.len.toNat / 4) := by
  rw [State.stepsTotal, h.n_eq hb]

omit hb in
/-- What is underway does not depend on WERR, the draws, the turns and the bus's answer. -/
theorem Underway.outside (w : Bool) (d : Nat) {l : List HostOp} (ts : List Turn) (a : Option Answer)
    (hl : ∀ op ∈ l, op.isSoftReset = false) :
    Underway s p { u with werr := w, draws := d, host := l, turns := ts, answer := a } where
  inv := h.inv.outside w d l ts a
  phase := h.phase
  host := hl
  computed := ⟨h.computed.len, h.computed.key, h.computed.block, h.computed.outside⟩

/-- An engine step computes one step more (R154). -/
theorem Underway.computed_engineTurn {t : State} (e : engineTurn u = .next t) :
    Computed s p (u.stepsDone + 1) t ∧ t.host = u.host ∧ t.turns = u.turns := by
  have n_eq := h.n_eq hb
  have block := engineTurn_block h.inv (h.busy hb) e
  have place := h.inv.place_lt (h.busy hb)
  obtain ⟨hr, x, frame⟩ := engineTurn_frame (h.busy hb) e
  have kept : t.blockByte = (u.setBlockWord u.seq.r.toNat x).blockByte ∧ t.len = u.len ∧ t.key = u.key ∧
      t.host = u.host ∧ t.turns = u.turns := by
    rcases frame with ⟨q, rfl, -, -⟩ | rfl
    · exact ⟨State.blockByte_congr rfl rfl, rfl, rfl, rfl, rfl⟩
    · exact ⟨State.blockByte_congr rfl rfl, rfl, rfl, rfl, rfl⟩
  obtain ⟨bytes, len, key, host, turns⟩ := kept
  refine ⟨⟨len.trans h.computed.len, key.trans h.computed.key, ?_, ?_⟩, host, turns⟩
  · have words := wordsAfter_succ p s.key (s.block (s.len.toNat / 4)) u.seq.cyc.toNat (i := u.place)
    rw [State.block_length, ← n_eq] at words
    rw [← n_eq, block, h.phase, h.computed.key, n_eq, h.computed.block, ← n_eq]
    exact (words place).symm
  · intro a ha
    rw [bytes, State.blockByte_setBlockWord, if_neg, h.computed.outside a ha]
    unfold wordAddr dataBase
    omega

/-- A host turn computes nothing and resets nothing. -/
theorem Underway.step_host {rest : List Turn} (turns : u.turns = .host :: rest) :
    ∃ t, step u = .next t ∧ Underway s p t ∧ t.turns = rest ∧ t.stepsDone = u.stepsDone := by
  have quiet : ∀ op, u.hostIssues op → op.isSoftReset = false := fun op issues =>
    h.host op (List.mem_of_mem_head? issues.2)
  obtain ⟨w, d, l, a, hl, e⟩ := step_of_busy_host (h.busy hb) (State.nextTurn_of_cons turns) quiet
  exact ⟨_, e, h.outside w d _ a fun op mem => h.host op (hl op mem), by simp [turns], rfl⟩

/-- An engine turn computes one step more, and goes on unless that was the last step. -/
theorem Underway.step_engine {rest : List Turn} (turns : u.turns = .engine :: rest) :
    ∃ t, step u = .next t ∧ t.turns = rest ∧ Computed s p (u.stepsDone + 1) t ∧
      ((Underway s p t ∧ t.stepsDone = u.stepsDone + 1) ∨
        (t.phase = .idle ∧ t.done = true ∧ u.stepsDone + 1 = u.stepsTotal)) := by
  have now : Underway s p u.popTurn := h.outside u.werr u.draws _ u.answer h.host
  obtain ⟨t, e, inv⟩ := now.inv.engineTurn
  obtain ⟨computed, host, left⟩ := now.computed_engineTurn hb e
  refine ⟨t, (step_of_engine (State.nextTurn_of_cons turns)).trans e, by simp [left, turns], computed, ?_⟩
  cases engineTurn_advances now.inv (now.busy hb) e with
  | goesOn phase _ steps =>
    exact .inl ⟨⟨inv, phase.trans h.phase, fun op mem => h.host op (host ▸ mem), steps ▸ computed⟩, steps⟩
  | completes phase done steps => exact .inr ⟨phase, done, steps⟩

/-- So long as the listed turns hold no power-on and fewer engine turns than the command still needs, the command stays
underway, by induction on the turns. -/
theorem Underway.run {ts rest : List Turn} (turns : u.turns = ts ++ rest) (hp : .powerOn ∉ ts)
    (few : u.stepsDone + ts.count .engine < rounds (s.len.toNat / 4) * (s.len.toNat / 4)) :
    ∃ t, Host.Core.run core ts.length u = .next t ∧ Underway s p t ∧ t.turns = rest ∧
      t.stepsDone = u.stepsDone + ts.count .engine := by
  induction ts generalizing u with
  | nil => exact ⟨u, rfl, h, turns, rfl⟩
  | cons x ts ih =>
    obtain ⟨hx, later⟩ := not_or.1 (mt List.mem_cons.2 hp)
    cases x with
    | powerOn => exact absurd rfl hx
    | host =>
      have count : (Turn.host :: ts).count .engine = ts.count .engine := List.count_cons_of_ne (by decide)
      rw [count] at few ⊢
      obtain ⟨t, e, ht, left, steps⟩ := h.step_host hb turns
      rw [List.length_cons, core_run_succ _ e, ← steps]
      exact ih ht left later (by omega)
    | engine =>
      have count : (Turn.engine :: ts).count .engine = ts.count .engine + 1 := List.count_cons_self
      rw [count] at few ⊢
      obtain ⟨t, e, left, -, ⟨ht, steps⟩ | ⟨-, -, last⟩⟩ := h.step_engine hb turns
      · rw [List.length_cons, core_run_succ _ e]
        obtain ⟨v, run, hv, rest_left, done⟩ := ih ht left later (by omega)
        exact ⟨v, run, hv, rest_left, by omega⟩
      · rw [h.stepsTotal_eq hb] at last
        omega

/-- The command is BUSY through all turns before the engine's last one, and complete after it (R153, R154, R156). -/
theorem Underway.completes {ts rest : List Turn} (turns : u.turns = ts ++ .engine :: rest) (hp : .powerOn ∉ ts)
    (steps : u.stepsDone + (ts.count .engine + 1) = rounds (s.len.toNat / 4) * (s.len.toNat / 4)) :
    (∀ k, k ≤ ts.length → ∃ t, Host.Core.run core k u = .next t ∧ t.busy = true) ∧
    ∃ t, Host.Core.run core (ts.length + 1) u = .next t ∧ t.phase = .idle ∧ t.done = true ∧ t.turns = rest ∧
      Computed s p (rounds (s.len.toNat / 4) * (s.len.toNat / 4)) t := by
  constructor
  · intro k hk
    have before : u.turns = ts.take k ++ (ts.drop k ++ .engine :: rest) := by
      rw [← List.append_assoc, List.take_append_drop, turns]
    have fewer : (ts.take k).count .engine ≤ ts.count .engine := (List.take_sublist k ts).count_le _
    obtain ⟨t, e, ht, -, -⟩ := h.run hb before (fun mem => hp (List.mem_of_mem_take mem)) (by omega)
    rw [List.length_take_of_le hk] at e
    exact ⟨t, e, ht.busy hb⟩
  · obtain ⟨v, run, hv, left, done⟩ := h.run hb turns hp (by omega)
    have last : v.stepsDone + 1 = rounds (s.len.toNat / 4) * (s.len.toNat / 4) := by omega
    obtain ⟨t, e, turns_left, computed, ⟨ht, more⟩ | ⟨phase, isDone, -⟩⟩ := hv.step_engine hb left
    · have := ht.inv.stepsDone_lt (ht.busy hb)
      rw [ht.stepsTotal_eq hb] at this
      omega
    · rw [last] at computed
      exact ⟨t, by rw [core_run_add _ 1 run, core_run_succ 0 e]; rfl, phase, isDone, turns_left, computed⟩

end Run

/-! # The commands compute the transform -/

section Accept
variable {s : State} (hi : s.Inv) (hp : s.phase = .idle) (hl : checkLen s.params s.len = .none)
  (host : ∀ op ∈ s.host, op.isSoftReset = false)
include hi hp hl host

theorem underway_acceptEncrypt : Underway s .enc s.acceptEncrypt ∧ s.acceptEncrypt.stepsDone = 0 := by
  have start : s.acceptEncrypt.stepsDone = 0 := by
    rw [State.stepsDone_enc rfl]
    show 0 * _ + 0 = 0
    omega
  exact ⟨⟨hi.acceptEncrypt hp hl, rfl, host, by rw [start]; exact ⟨rfl, rfl, rfl, fun _ _ => rfl⟩⟩, start⟩

theorem underway_acceptDecrypt : Underway s .dec s.acceptDecrypt ∧ s.acceptDecrypt.stepsDone = 0 := by
  have start : s.acceptDecrypt.stepsDone = 0 := by
    have positive := (wordCount_bounds hl).1
    have last : (wordCount s.len - 1).toNat = (wordCount s.len).toNat - 1 := by bv_omega
    rw [State.stepsDone_dec rfl]
    show 0 * _ + ((wordCount s.len).toNat - 1 - (wordCount s.len - 1).toNat) = 0
    omega
  exact ⟨⟨hi.acceptDecrypt hp hl, rfl, host, by rw [start]; exact ⟨rfl, rfl, rfl, fun _ _ => rfl⟩⟩, start⟩

end Accept

/-- Settles O21: an accepted ENCRYPT is underway with no step done, and all its steps are Encrypt. -/
theorem encryptCommandComputesEncrypt : Obligations.EncryptCommandComputesEncrypt := by
  intro s t ts rest hi hp h0 h4 hmax host accepted turns noReset steps
  have ok := checkLen_ok_iff.2 ⟨h0, h4, hmax⟩
  rw [exec_encrypt_accepted hp ok] at accepted
  cases accepted
  obtain ⟨underway, start⟩ := underway_acceptEncrypt hi hp ok host
  obtain ⟨busy, u, run, idle, done, left, computed⟩ := underway.completes rfl turns noReset (by rw [start]; omega)
  have words := wordsAfter_enc s.key (s.block_length (s.len.toNat / 4))
  exact ⟨busy, u, run, idle, done, computed.block.trans words, computed.key, left, computed.outside⟩

/-- Settles O22: an accepted DECRYPT is underway with no step done, and all its steps are Decrypt. -/
theorem decryptCommandComputesDecrypt : Obligations.DecryptCommandComputesDecrypt := by
  intro s t ts rest hi hp h0 h4 hmax host accepted turns noReset steps
  have ok := checkLen_ok_iff.2 ⟨h0, h4, hmax⟩
  rw [exec_decrypt_accepted hp ok] at accepted
  cases accepted
  obtain ⟨underway, start⟩ := underway_acceptDecrypt hi hp ok host
  obtain ⟨busy, u, run, idle, done, left, computed⟩ := underway.completes rfl turns noReset (by rw [start]; omega)
  have words := wordsAfter_dec s.key (s.block_length (s.len.toNat / 4))
  exact ⟨busy, u, run, idle, done, computed.block.trans words, computed.key, left, computed.outside⟩

/-! # The block leaves BUSY -/

/-- The engine steps until the block is not BUSY, if no reset comes first. -/
def State.stepsLeft (s : State) : Nat := if s.busy then s.stepsTotal - s.stepsDone else 0

theorem State.stepsLeft_busy {s : State} (hb : s.busy = true) : s.stepsLeft = s.stepsTotal - s.stepsDone := if_pos hb

/-- A command takes at most 6 NMAX + 52 engine steps: (6 + 52 div N) · N, and N ≤ NMAX (R101, R156). -/
theorem State.Inv.stepsTotal_le {s : State} (hi : s.Inv) (hb : s.busy = true) :
    s.stepsTotal ≤ 6 * s.params.nmax + 52 := by
  have n_le := ((State.indexInBlock_iff s).1 (hi.indexInBlock hb)).2
  have div := Nat.div_mul_le_self 52 s.seq.n.toNat
  rw [State.stepsTotal, rounds, Nat.add_mul]
  omega

/-- Every step of a BUSY block ends the command, or uses up a listed turn or an engine step of the command. -/
theorem busy_step_measure {s t : State} (hi : s.Inv) (hb : s.busy = true) (e : step s = .next t) :
    t.busy = false ∨ t.turns.length + t.stepsLeft < s.turns.length + s.stepsLeft := by
  have listed : s.nextTurn ≠ .engine → s.popTurn.turns.length < s.turns.length := fun turn => by
    rcases ht : s.turns with _ | ⟨x, rest⟩
    · simp [State.nextTurn, ht, hb] at turn
    · simp [ht]
  rcases turn : s.nextTurn with _ | _ | _
  case host =>
    by_cases reset : ∃ op, s.hostIssues op ∧ op.isSoftReset = true
    · obtain ⟨op, issues, hr⟩ := reset
      rw [step_of_host issues, hostOp_softReset _ hr] at e
      cases e
      exact .inl rfl
    · have quiet : ∀ op, s.hostIssues op → op.isSoftReset = false := fun op issues =>
        Bool.eq_false_iff.2 fun hr => reset ⟨op, issues, hr⟩
      obtain ⟨w, d, h, a, -, e'⟩ := step_of_busy_host hb turn quiet
      rw [e'] at e
      cases e
      exact .inr (Nat.add_lt_add_right (listed (by simp [turn])) _)
  case engine =>
    rw [step_of_engine turn] at e
    have turns : t.turns.length ≤ s.turns.length := by
      obtain ⟨-, x, ⟨q, rfl, -, -⟩ | rfl⟩ := engineTurn_frame (s := s.popTurn) hb e <;> simp
    have steps := hi.stepsDone_lt hb
    cases engineTurn_advances hi.popTurn hb e with
    | goesOn phase n done =>
      have busy : t.busy = true := by rw [State.busy, phase]; exact hb
      have total : t.stepsTotal = s.stepsTotal := by rw [State.stepsTotal, n]; rfl
      have done : t.stepsDone = s.stepsDone + 1 := done
      right
      rw [State.stepsLeft_busy hb, State.stepsLeft_busy busy, total, done]
      omega
    | completes phase => exact .inl (State.busy_of_idle phase)
  case powerOn =>
    rw [step_of_powerOn turn] at e
    cases e
    exact .inl rfl

/-- The block leaves BUSY within its measure, by induction on it. -/
theorem leaves_busy (m : Nat) {s : State} (hi : s.Inv) (hm : s.turns.length + s.stepsLeft ≤ m) :
    ∃ k t, k ≤ m ∧ Host.Core.run core k s = .next t ∧ t.busy = false := by
  induction m generalizing s with
  | zero =>
    rcases hb : s.busy with _ | _
    · exact ⟨0, s, le_rfl, rfl, hb⟩
    · have := hi.stepsDone_lt hb
      rw [State.stepsLeft_busy hb] at hm
      omega
  | succ m ih =>
    rcases hb : s.busy with _ | _
    · exact ⟨0, s, Nat.zero_le _, rfl, hb⟩
    · obtain ⟨t, e⟩ := hi.step_next
      rcases busy_step_measure hi hb e with idle | less
      · exact ⟨1, t, by omega, core_run_succ 0 e, idle⟩
      · obtain ⟨k, u, hk, run, idle⟩ := ih ((step_effect e).inv hi) (by omega)
        exact ⟨k + 1, u, by omega, (core_run_succ k e).trans run, idle⟩

/-- Settles O23: the measure of a state is at most its listed turns and the steps of one command. -/
theorem everyRunLeavesBusy : Obligations.EveryRunLeavesBusy := by
  intro s hi
  refine leaves_busy _ hi ?_
  rcases hb : s.busy with _ | _
  · simp [State.stepsLeft, hb]; omega
  · have := hi.stepsTotal_le hb
    rw [State.stepsLeft_busy hb]
    omega

end Sys2Proof.Machine

namespace Sys2Proof.Machine

/-! # Dropped commands and the order of a transaction's outcomes (R175, R177, R196) -/

/-- Every command but SRST is gated by the phase (R140). -/
theorem exec_gated {i : Instr} (h : i = .nop ∨ i = .encrypt ∨ i = .decrypt) (s : State) :
    ∃ accept : State → State, exec i s = .next (s.acceptInIdle accept) := by
  rcases h with rfl | rfl | rfl <;> exact ⟨_, rfl⟩

/-- Settles O14: outside IDLE the phase gate does not ask which command it holds back. -/
theorem commandsAreDroppedOutsideIdle : Obligations.CommandsAreDroppedOutsideIdle := by
  intro s i hi
  obtain ⟨accept, e⟩ := exec_gated hi s
  rw [e]
  exact ⟨fun busy => congrArg Host.Outcome.next (State.acceptInIdle_busy accept busy),
    fun faulted => congrArg Host.Outcome.next (State.acceptInIdle_faulted accept faulted)⟩

section Outcomes
variable {s : State} {v : Word}

/-- A CTRL word with bit 31 set resets in every phase (R142). -/
theorem step_of_srst_write (h : s.hostIssues (.write 0 .word v)) (hv : v.getLsbD 31 = true) :
    step s = .next (s.issued.softReset.respond .written) := by
  rw [step_of_ctrl_write h, command_srst _ hv]; rfl

/-- Every other CTRL word is dropped while FAULTED, with no effect (R175). -/
theorem step_of_faulted_ctrl_write (h : s.hostIssues (.write 0 .word v)) (hv : v.getLsbD 31 = false)
    (hp : s.phase = .faulted) : step s = .next (s.issued.respond .written) := by
  obtain ⟨accept, e, -⟩ := command_other s.issued hv
  rw [step_of_ctrl_write h, e, State.acceptInIdle_faulted accept (s := s.issued) hp]; rfl

/-- Every other CTRL word is dropped while BUSY, with WERR (R196). -/
theorem step_of_busy_ctrl_write (h : s.hostIssues (.write 0 .word v)) (hv : v.getLsbD 31 = false)
    (hb : s.busy = true) : step s = .next (s.issued.dropWrite.respond .written) := by
  obtain ⟨accept, e, -⟩ := command_other s.issued hv
  rw [step_of_ctrl_write h, e, State.acceptInIdle_busy accept (s := s.issued) hb]; rfl

/-- A legal write while BUSY, to whatever register, is dropped with WERR unless it is an SRST word to CTRL (R196). -/
theorem step_of_busy_write {a : BitVec 32} {n : Size} (h : s.hostIssues (.write a n v))
    (legal : busTarget s.params a n ≠ none) (hb : s.busy = true) (notSrst : ¬ (a = 0 ∧ v.getLsbD 31 = true)) :
    step s = .next (s.issued.dropWrite.respond .written) := by
  obtain ⟨g, hg⟩ := Option.ne_none_iff_exists'.1 legal
  by_cases hc : g = .ctrl
  · obtain ⟨rfl, rfl⟩ := busTarget_ctrl_iff.1 (hc ▸ hg)
    exact step_of_busy_ctrl_write h (by simpa using notSrst) hb
  · rw [step_of_write h, memWrite_dropped (s := s.issued) v hg hc hb]

/-- A word of ENCRYPT or DECRYPT in IDLE with a failing length check raises the check's fault (R143, R172). -/
theorem step_of_failed_check {code : FaultCode} (h : s.hostIssues (.write 0 .word v)) (hv : v = 1 ∨ v = 2)
    (hp : s.phase = .idle) (failed : checkLen s.params s.len = code) (hc : code ≠ .none) :
    step s = .next { s.issued with phase := .faulted, fcode := code, answer := some .written } := by
  have decoded : ∃ i, (i = .encrypt ∨ i = .decrypt) ∧ decode v = .command i := by
    rcases hv with rfl | rfl
    · exact ⟨.encrypt, .inl rfl, decode_encode .encrypt⟩
    · exact ⟨.decrypt, .inr rfl, decode_encode .decrypt⟩
  obtain ⟨i, hi, hdec⟩ := decoded
  obtain ⟨accept, e, -⟩ := exec_checks_length (s := s.issued) hi hp
  rw [stepRunsTheWrittenCommand s v i h hdec, e, State.checkThen_of_failed accept (s := s.issued) failed hc]
  rfl

end Outcomes

/-- Settles O16: what a clause assumes gives the outcome of a read, of a write while BUSY, or of a CTRL word in its phase. -/
theorem outcomesInPriorityOrder : Obligations.OutcomesInPriorityOrder := by
  intro s a n v
  refine ⟨fun h illegal => ?_, fun h => ⟨fun illegal => ?_, fun legal hb notSrst => ?_, fun ctrl hv => ?_,
    fun ctrl hv hp => ?_, fun ctrl hp hlo hhi => ?_, fun ctrl hp hv => ?_⟩⟩
  · rw [step_of_read h, memRead_illegal (s := s.issued) illegal]
  · rw [step_of_write h, memWrite_illegal (s := s.issued) v illegal]
  · exact step_of_busy_write h legal hb notSrst
  all_goals obtain ⟨rfl, rfl⟩ := busTarget_ctrl_iff.1 ctrl
  · exact step_of_srst_write h hv
  · exact step_of_faulted_ctrl_write h hv hp
  · obtain ⟨hbit, hfields⟩ := (illegal_range_iff_fields v).1 ⟨hlo, hhi⟩
    obtain ⟨inIdle, -⟩ := illegalWordsByPhase s v hbit hfields h
    exact inIdle hp
  · refine ⟨fun h0 => ?_, fun h0 h4 => ?_, fun h0 h4 hmax => ?_⟩
    · exact step_of_failed_check h hv hp (checkLen_zero h0) (by decide)
    · exact step_of_failed_check h hv hp (checkLen_unaligned h0 h4) (by decide)
    · exact step_of_failed_check h hv hp (checkLen_range h0 h4 hmax) (by decide)

/-! # Faults: how they end and where they come from (R172, R173, R174, R176) -/

/-- A reset, of either kind, leaves IDLE with FCODE = 0 (R36, R176). -/
theorem step_of_reset {s t : State} (hr : s.resetsNext) (h : step s = .next t) : t.phase = .idle ∧ t.fcode = .none := by
  rcases hr with turn | ⟨op, issues, reset⟩
  · rw [step_of_powerOn turn] at h; cases h; exact ⟨rfl, rfl⟩
  · rw [step_of_host issues, hostOp_softReset s.issued reset] at h; cases h; exact ⟨rfl, rfl⟩

/-- FAULTED is neither IDLE nor BUSY, so what is left of the effects of a step are the quiet ones and the stores (R174). -/
theorem fault_kept_without_reset {s t : State} (hp : s.phase = .faulted) (hr : ¬ s.resetsNext) (h : step s = .next t) :
    t.phase = .faulted ∧ t.fcode = s.fcode := by
  have notBusy : s.busy = false := (State.not_busy_iff s).2 (.inr hp)
  have notIdle : s.issued.phase ≠ .idle := by rw [State.issued_phase, hp]; decide
  cases step_effect h with
  | powerOn turn => exact absurd (.inl turn) hr
  | pass => exact ⟨hp, rfl⟩
  | engine _ busy => rw [notBusy] at busy; cases busy
  | host op issues he =>
    cases he with
    | quiet => exact ⟨hp, rfl⟩
    | softReset reset => exact absurd (State.resetsNext_of_issues issues reset) hr
    | acceptEncrypt _ idle | acceptDecrypt _ idle | fault _ _ _ idle => exact absurd idle notIdle
    | store _ _ _ g => cases g <;> exact ⟨hp, rfl⟩

/-- Settles O46: either the step resets, or it keeps the fault; the engine has no step in FAULTED. -/
theorem faultsAreSticky : Obligations.FaultsAreSticky := by
  intro s t hp h
  refine ⟨?_, fun turn => ?_⟩
  · by_cases hr : s.resetsNext
    · exact .inr ⟨hr, step_of_reset hr h⟩
    · exact .inl ⟨hr, fault_kept_without_reset hp hr h⟩
  · rw [step_of_engine turn, engineTurn_notBusy (s := s.popTurn) ((State.not_busy_iff s).2 (.inr hp))] at h
    cases h; rfl

/-- Settles O47: of the effects of a step only `fault` enters FAULTED, and it records its own cause. -/
theorem faultsComeFromCommandWrites : Obligations.FaultsComeFromCommandWrites := by
  intro s t h hs ht
  cases step_effect h with
  | powerOn => cases ht
  | pass => exact absurd ht hs
  | engine _ busy eq =>
    obtain ⟨-, x, ⟨q, rfl, -, -⟩ | rfl⟩ := engineTurn_frame (s := s.popTurn) busy eq
    · exact absurd ht hs
    · cases ht
  | host op issues he =>
    cases he with
    | quiet => exact absurd ht hs
    | softReset | acceptEncrypt | acceptDecrypt => cases ht
    | fault w code write idle cause => exact ⟨idle, w, write ▸ issues, rfl, cause⟩
    | store _ _ _ g => cases g <;> exact absurd ht hs

end Sys2Proof.Machine
namespace Sys2Proof.Machine

/-! # Soft reset in every phase (R142, R191) -/

/-- SRST is the soft reset, whatever its ignored bits are (R80, R142). -/
theorem exec_srst (ignored : BitVec 31) (s : State) : exec (.srst ignored) s = .next s.softReset := rfl

/-- Settles O10: the values of the existentials are those the reset draws, and no ignored bit occurs in them. -/
theorem srstIsAcceptedInEveryPhase : Obligations.SrstIsAcceptedInEveryPhase := by
  intro s ignored
  refine ⟨⟨Sequencer.unspecified s.draws, s.draws + 1, exec_srst ignored s⟩, ?_, fun w hw h => ?_⟩
  · rw [exec_srst, exec_srst]
  · exact ⟨Sequencer.unspecified s.draws, s.draws + 1, step_of_srst_write h hw⟩

/-! # The host's traffic while BUSY (R196, R197) -/

/-- The value of an access of `n` bytes has 8·n bits (R55). -/
theorem narrow_toNat_lt (n : Size) (v : Word) : (narrow n v).toNat < 2 ^ (8 * n.bytes) := by
  cases n with
  | byte => exact (BitVec.toNat_setWidth_of_le (by decide)).trans_lt (v.setWidth 8).isLt
  | half => exact (BitVec.toNat_setWidth_of_le (by decide)).trans_lt (v.setWidth 16).isLt
  | word => exact v.isLt

/-- A DATA read while BUSY answers a free value and takes the draw it came from (R197). -/
theorem memRead_data_busy {s : State} {a : BitVec 32} {n : Size} {b : Nat}
    (h : busTarget s.params a n = some (.data b)) (hb : s.busy = true) :
    memRead a n s = (.data (narrow n (Config.busyRead s.draws)), { s with draws := s.draws + 1 }) := by
  simp [memRead, h, hb]

/-- Settles O37: the answer is the free value, narrowed to the access, and only the count of draws moves. -/
theorem busyDataReadsChangeNothing : Obligations.BusyDataReadsChangeNothing := by
  intro s a n hb hlo hhi hal h
  have target : busTarget s.issued.params a n = some (.data (a.toNat - 0x1000)) :=
    busTarget_data_iff.2 ⟨hal, hlo, hhi, rfl⟩
  refine ⟨narrow n (Config.busyRead s.draws), s.draws + 1, narrow_toNat_lt n _, ?_⟩
  rw [step_of_read h, memRead_data_busy target hb]
  rfl

/-- No operation of the host but an SRST write clears WERR (R196). -/
theorem HostEffect.werr_kept {op : HostOp} {s t : State} (h : HostEffect op s t) (hw : s.werr = true) :
    t.werr = true ∨ op.isSoftReset = true := by
  cases h with
  | quiet w d l a notReset werr =>
    rcases werr with kept | ⟨-, set⟩
    · exact .inl (kept.trans hw)
    · exact .inl set
  | softReset reset => exact .inr reset
  | acceptEncrypt | acceptDecrypt | fault => exact .inl hw
  | store _ _ _ g => cases g <;> exact .inl hw

/-- No engine step writes WERR (R151, R152, R153). -/
theorem engineTurn_werr {s t : State} (hb : s.busy = true) (h : engineTurn s = .next t) : t.werr = s.werr := by
  obtain ⟨-, x, ⟨q, rfl, -, -⟩ | rfl⟩ := engineTurn_frame hb h
  · rfl
  · rfl

/-- WERR stays through every step but a reset (R196). -/
theorem StepEffect.werr_kept {s t : State} (h : StepEffect s t) (hw : s.werr = true) :
    t.werr = true ∨ s.resetsNext := by
  cases h with
  | powerOn turn => exact .inr (.inl turn)
  | pass => exact .inl hw
  | engine _ busy eq => exact .inl ((engineTurn_werr (s := s.popTurn) busy eq).trans hw)
  | host op issues effect => exact (effect.werr_kept hw).imp_right (State.resetsNext_of_issues issues)

/-- Settles O43: the drop is the outcome of a legal busy write, and each effect of a step keeps WERR or is a reset. -/
theorem busyWritesAreDropped : Obligations.BusyWritesAreDropped :=
  ⟨fun _ _ _ _ hb legal h notSrst => step_of_busy_write h legal hb notSrst,
    fun _ _ hw h => (step_effect h).werr_kept hw⟩

end Sys2Proof.Machine

namespace Sys2Proof.Machine

/-! # Power-on and the host's side -/

/-- Settles O53: a power-on turn is taken from the turns and then resets the block, and neither touches the rest. -/
theorem powerOnKeepsTheHostSide : Obligations.PowerOnKeepsTheHostSide := by
  intro s turn
  refine ⟨s.popTurn.powerOn, step_of_powerOn turn, ?params, ?host, ?turns, ?answer⟩
  case params => rw [State.powerOn_params, State.popTurn_params]
  case host => rw [State.powerOn_host, State.popTurn_host]
  case turns => rw [State.powerOn_turns, State.popTurn_turns]
  case answer => rw [State.powerOn_answer, State.popTurn_answer]

end Sys2Proof.Machine
